-- ==== Sys2Proof/Word.lean ====
section
/-! DEFINITION. The word types of the block: the 6-bit operation word, the 3-bit selector and the byte. -/

namespace Sys2Proof

/-- The operation word `w[5:0]` sampled in one cycle, bit 0 least significant (R15, R59). -/
abbrev OpWord := BitVec 6

/-- A value of `strap_sel[2:0]` or of `cfg_sel`: every one of the eight is a legal selector (R25, R34). -/
abbrev Sel := BitVec 3

/-- A byte. The block stores none (R47); bytes only carry an operation word to the decoder (log entry 5). -/
abbrev Byte := BitVec 8

end Sys2Proof
end

