-- ==== Sys2Proof/Config.lean ====
section
/-! DEFINITION. The parameter record of the block (00_scope.md R6 to R12), the records the spec names, and the
one free value of the model: the words an environment presents when none has been placed. -/

namespace Sys2Proof

/-- `SEL_MAP`: which nominal duration each selector value names (R11). -/
inductive SelMap where
  | clean
  | swap01
deriving DecidableEq, Repr

/-- `D[s]`, the nominal duration of selector `s` in microseconds (R11, R88). -/
def nominalUs : SelMap → Sel → Nat
  | .clean, 0 => 500000
  | .clean, 1 => 1000000
  | .swap01, 0 => 1000000
  | .swap01, 1 => 500000
  | _, 2 => 3000000
  | _, 3 => 5000000
  | _, 4 => 10000000
  | _, 5 => 15000000
  | _, 6 => 30000000
  | _, 7 => 60000000

/-- The parameter record, fixed when the block is elaborated (R6 to R12, R41). -/
structure Params where
  /-- `W_E`, the width in bits of `elapsed` (R6). -/
  wE : Nat
  /-- `W_R`, the width in bits of `reset_elapsed` (R7). -/
  wR : Nat
  /-- `TICK_PERIOD` in microseconds; no rule of the cycle reads it (R8). -/
  tickPeriodUs : Nat
  /-- `SEL_MAP`; the cycle reads `timeoutTicks` only (R11). -/
  selMap : SelMap
  /-- `F_CLK`; `none` is the spec's OPEN, and no rule reads it (R12). -/
  fClkHz : Option Nat
  /-- `TIMEOUT_TICKS`, the threshold `N[s]` in ticks of each selector value (R9). -/
  timeoutTicks : Vector Nat 8
  /-- `RESET_PULSE_TICKS`, the pulse width `P` in ticks, one for all selectors (R10, R99). -/
  resetPulseTicks : Nat
deriving DecidableEq, Repr

/-- `N[s] = D[s] / T + 1` for every selector, for a tick of `tickUs` microseconds (R9). DESIGN CHOICE (log entry 14):
where `T` does not divide `D[s]`, the spec does not say how the quotient is rounded, and it is rounded down here. -/
def derivedTicks (tickUs : Nat) (m : SelMap) : Vector Nat 8 :=
  #v[nominalUs m 0 / tickUs + 1, nominalUs m 1 / tickUs + 1, nominalUs m 2 / tickUs + 1, nominalUs m 3 / tickUs + 1,
     nominalUs m 4 / tickUs + 1, nominalUs m 5 / tickUs + 1, nominalUs m 6 / tickUs + 1, nominalUs m 7 / tickUs + 1]

/-- The default record: `W_E = 16`, `W_R = 8`, `T = 1 ms`, `CLEAN`, `P = 100` (R6 to R12, R88). -/
def Params.default : Params :=
  { wE := 16
    wR := 8
    tickPeriodUs := 1000
    selMap := .clean
    fClkHz := none
    timeoutTicks := #v[501, 1001, 3001, 5001, 10001, 15001, 30001, 60001]
    resetPulseTicks := 100 }

/-- The default record with selector values 0 and 1 exchanged (R11, R88). -/
def Params.swapped : Params :=
  { Params.default with
    selMap := .swap01
    timeoutTicks := #v[1001, 501, 3001, 5001, 10001, 15001, 30001, 60001] }

/-- FREE VALUE (log entry 4): the operation word the environment presents at the n-th clock edge for which no port
sample has been placed. It has no body, so a statement about it holds for every input sequence (R121, I15). -/
opaque Config.envWord : Nat → OpWord

end Sys2Proof
end

