-- ==== Sys2Proof/Syntax.lean ====
section
/-! DEFINITION. The five operations of spec/opcode_table.json. -/

namespace Sys2Proof

/-- The operation one cycle performs (R62). The bits a row ignores (`K` of RESET, `S` of the other four) are no
operands: any value of them has the same effect (R69). -/
inductive Instr where
  /-- `RESET`: the heartbeat level `H` and the strap selector `S` it latches (R105). -/
  | reset (h : Bool) (sel : Sel)
  /-- `IDLE_L`: no tick, heartbeat low (R106). -/
  | idleL
  /-- `IDLE_H`: no tick, heartbeat high (R107). -/
  | idleH
  /-- `TICK_L`: one tick, heartbeat low (R108). -/
  | tickL
  /-- `TICK_H`: one tick, heartbeat high (R109). -/
  | tickH
deriving DecidableEq, Repr

end Sys2Proof
end

