-- ==== Sys2Proof/WellFormed.lean ====
section
/-! DEFINITION. The checks of the block. An operation has none: every field of `Instr` holds exactly the values its
port can carry, so every operation is legal in every state (R25, R69, R135). What can be ill formed is the parameter
record, and such a record is refused at elaboration (R13). -/

namespace Sys2Proof

/-- Every threshold is at least one tick and fits the `elapsed` counter (R13). -/
def Params.thresholdsFit (p : Params) : Bool :=
  p.timeoutTicks.toList.all (fun n => decide (1 ≤ n ∧ n ≤ 2 ^ p.wE - 1))

/-- The pulse is at least one tick long and fits the `reset_elapsed` counter (R13). -/
def Params.pulseFits (p : Params) : Bool :=
  decide (1 ≤ p.resetPulseTicks ∧ p.resetPulseTicks ≤ 2 ^ p.wR - 1)

/-- A well-formed record: the only kind a machine is built from (R13). -/
def Params.wellFormed (p : Params) : Bool := p.thresholdsFit && p.pulseFits

/-- A separated record: every threshold exceeds the pulse width, so the tie-break of §4.5 never binds (R14). -/
def Params.separated (p : Params) : Bool :=
  p.timeoutTicks.toList.all (fun n => decide (p.resetPulseTicks < n))

end Sys2Proof
end

