-- ==== Sys2Proof/Decode.lean ====
section
/-! DEFINITION. Decoding of the operation word (30_encoding.md R59 to R69), the opcode table's mask and match of each
row, and the encoder (R70). -/

namespace Sys2Proof

/-- `in.R`: bit 5, 1 when reset is asserted in the cycle (R60). -/
def OpWord.rBit (w : OpWord) : Bool := w.getLsbD 5

/-- `in.K`: bit 4, 1 when the cycle has a tick (R60). -/
def OpWord.kBit (w : OpWord) : Bool := w.getLsbD 4

/-- `in.H`: bit 3, the sampled heartbeat level (R60). -/
def OpWord.hBit (w : OpWord) : Bool := w.getLsbD 3

/-- `in.S`: bits 2 to 0, copied unchanged (R60, R61). -/
def OpWord.sField (w : OpWord) : Sel := w.extractLsb' 0 3

/-- The operation a word selects: total, since the five rows partition the 64 words (R62, R69). -/
def decodeWord (w : OpWord) : Instr :=
  match w.rBit, w.kBit, w.hBit with
  | true, _, h => .reset h w.sField
  | false, false, false => .idleL
  | false, false, true => .idleH
  | false, true, false => .tickL
  | false, true, true => .tickH

/-- Why bytes carry no operation word. -/
inductive DecodeError where
  /-- There is no byte. -/
  | noWord
  /-- Bit 6 or 7 of the byte is set: an operation word has six bits and no other length (R59). -/
  | wideWord
deriving DecidableEq, Repr

/-- The operation carried by the first byte, its word in bits 5 to 0, with the bytes after it (R59, log entry 5). -/
def decodeBytes : List Byte → Except DecodeError (Instr × List Byte)
  | [] => .error .noWord
  | b :: rest => if b.toNat < 64 then .ok (decodeWord (b.setWidth 6), rest) else .error .wideWord

/-- The operation the decoder reads from an instruction of `nbits` bits with value `w`, as
spec/opcode_table.json numbers them (R72). -/
def decodeTableWord (nbits w : Nat) : Option Instr :=
  if w % 2 ^ nbits < 256 then
    match decodeBytes [BitVec.ofNat 8 (w % 2 ^ nbits)] with
    | .ok (i, _) => some i
    | .error _ => none
  else none

/-- The row's mask in spec/opcode_table.json (R62). -/
def Instr.rowMask : Instr → OpWord
  | .reset _ _ => 0b100000#6
  | .idleL => 0b111000#6
  | .idleH => 0b111000#6
  | .tickL => 0b111000#6
  | .tickH => 0b111000#6

/-- The row's match in spec/opcode_table.json (R62). -/
def Instr.rowMatch : Instr → OpWord
  | .reset _ _ => 0b100000#6
  | .idleL => 0b000000#6
  | .idleH => 0b001000#6
  | .tickL => 0b010000#6
  | .tickH => 0b011000#6

/-- The bits of the word that matter to the operation: all but the ones its row ignores (R62, R69). -/
def Instr.careMask : Instr → OpWord
  | .reset _ _ => 0b101111#6
  | .idleL => 0b111000#6
  | .idleH => 0b111000#6
  | .tickL => 0b111000#6
  | .tickH => 0b111000#6

/-- The canonical word of an operation: `K = 0` in RESET, `S = 000` in the other rows (R63, R70). -/
def encode : Instr → OpWord
  | .reset h sel => 0b10#2 ++ BitVec.ofBool h ++ sel
  | .idleL => 0b000000#6
  | .idleH => 0b001000#6
  | .tickL => 0b010000#6
  | .tickH => 0b011000#6

/-- The byte that carries the canonical word of an operation (log entry 5). -/
def encodeBytes (i : Instr) : List Byte := [(encode i).setWidth 8]

end Sys2Proof
end

