-- ==== Sys2Proof/Machine/State.lean ====
section
/-! DEFINITION. The state of the block (10_state.md R29 to R35, R43), the port samples of its environment (R23), the
reasons a step can stop, and the state after reset (R42). -/

namespace Sys2Proof.Machine

/-- The block's six state registers, which are its whole state (R29 to R35). -/
structure Registers where
  /-- `cfg_sel`, the selector latched by the last RESET (R34). -/
  cfgSel : Sel
  /-- `last_level`, the heartbeat level sampled in the last cycle (R33). -/
  lastLevel : Bool
  /-- `elapsed`, ticks counted since the last edge, a `W_E`-bit unsigned value (R29). -/
  elapsed : Nat
  /-- `reset_elapsed`, ticks counted since the pulse started, a `W_R`-bit unsigned value (R32). -/
  resetElapsed : Nat
  /-- `powered`, 1 when the monitored device has power (R30). -/
  powered : Bool
  /-- `reset_asserted`, 1 when the reset line is held low (R31). -/
  resetAsserted : Bool
deriving DecidableEq, Repr

/-- The four named values of `fsm = {powered, reset_asserted}` (R38, R100). -/
inductive Fsm where
  | normal
  | failed
  | recovering
  | restoredInReset
deriving DecidableEq, Repr

/-- The level an input line shows at a sampling edge. -/
inductive Level where
  | low
  | high
  /-- X, Z or metastable: outside the operation word's domain (R69, R149). -/
  | notBoolean
deriving DecidableEq, Repr

/-- What the input ports show at one rising edge of `clk` (R23, R58). -/
structure Ports where
  /-- `rst_n`, active low. -/
  rstN : Level
  /-- `tick`. -/
  tick : Level
  /-- `hb_in`. -/
  hbIn : Level
  /-- `strap_sel[2]`. -/
  strap2 : Level
  /-- `strap_sel[1]`. -/
  strap1 : Level
  /-- `strap_sel[0]`. -/
  strap0 : Level
deriving DecidableEq, Repr

/-- What the environment does up to and at one rising edge of `clk`. -/
structure Sample where
  /-- The levels on the ports at the edge. -/
  ports : Ports
  /-- Whether, since the edge before, `rst_n` was asserted and released again without covering a clock edge, which R143
  makes the environment's duty to avoid (log entry 6). -/
  rstPulse : Bool
deriving DecidableEq, Repr

/-- The two output ports (R23, R28). -/
structure Outputs where
  /-- `reset_n`, the reset line: 0 is reset active. -/
  resetN : Bool
  /-- `pwr_en`, the power-cutoff line: 0 is power cut. -/
  pwrEn : Bool
deriving DecidableEq, Repr

/-- The machine: the block, its parameter record, and the environment's inputs. -/
structure State where
  /-- The parameter record the block was elaborated with; no step writes it (R41, log entry 2). -/
  params : Params
  /-- The registers; `none` is the state with no value, before the first RESET cycle (R43). -/
  regs : Option Registers
  /-- The samples of the coming clock edges, next first (the model's own field, log entry 3). -/
  inputs : List Sample
  /-- How many words of `Config.envWord` have been drawn (the model's own field, log entry 4). -/
  draws : Nat
deriving DecidableEq, Repr

/-- Why the model stops with a fault. -/
inductive Fault where
  /-- `NotReset`: an operation other than RESET in the state with no value (R43, R125). Raised by the meanings of
  IDLE_L, IDLE_H, TICK_L and TICK_H. Safe: the hardware computes some state there, the model proves nothing of it. -/
  | notReset
deriving DecidableEq, Repr

/-- Why the model refuses a step. -/
inductive Refusal where
  /-- An instruction with no meaning in the model, by its mnemonic. Raised by no arm of `exec`. Safe. -/
  | notModelled (mnemonic : String)
  /-- The parameter record is not well formed, and no machine is built from one (R13, R123). Raised by
  `elaborate` and by sampling a word. Safe. -/
  | illFormedRecord
  /-- A sampled input level is not Boolean (R69, R149). Raised by sampling a word. Safe. -/
  | nonBooleanLevel
deriving DecidableEq, Repr

/-- The machine right after a reset edge with strap value 0 and the heartbeat low (R42; these two input levels are
the model's choice, log entry 1), with the default record and no input placed. -/
def State.reset : State :=
  { params := Params.default
    regs := some
      { cfgSel := 0
        lastLevel := false
        elapsed := 0
        resetElapsed := 0
        powered := false
        resetAsserted := true }
    inputs := []
    draws := 0 }

end Sys2Proof.Machine
end

