-- ==== Sys2Proof/Machine/Operands.lean ====
section
/-! DEFINITION. Operand assembly: the inputs of a cycle (30_encoding.md R60, R61), the port levels that carry them
(10_state.md R23, R25 to R27), and the two constants the counters are compared with (R61, R87, R99). -/

namespace Sys2Proof.Machine

/-- The inputs of one cycle, as the pseudocode names them (R16, R60). -/
structure Inputs where
  /-- `in.R`, reset asserted. -/
  R : Bool
  /-- `in.K`, a tick. -/
  K : Bool
  /-- `in.H`, the heartbeat level. -/
  H : Bool
  /-- `in.S`, the strap value. -/
  S : Sel
deriving DecidableEq, Repr

/-- The inputs an operation stands for; ignored bits are written 0 (R62, R63, R70). -/
def inputsOf : Instr → Inputs
  | .reset h sel => { R := true, K := false, H := h, S := sel }
  | .idleL => { R := false, K := false, H := false, S := 0 }
  | .idleH => { R := false, K := false, H := true, S := 0 }
  | .tickL => { R := false, K := true, H := false, S := 0 }
  | .tickH => { R := false, K := true, H := true, S := 0 }

/-- `N[sel]`, the threshold in ticks of a selector value (R9, R87). -/
def threshold (p : Params) (sel : Sel) : Nat := p.timeoutTicks[sel.toNat]

/-- `P`, the pulse width in ticks, the same for every selector (R10, R99). -/
def pulseTicks (p : Params) : Nat := p.resetPulseTicks

/-- The Boolean an input line carries, if it carries one (R149). -/
def levelBit : Level → Option Bool
  | .low => some false
  | .high => some true
  | .notBoolean => none

/-- The level that carries a Boolean. -/
def levelOf : Bool → Level
  | false => .low
  | true => .high

/-- The operation word the ports show: `R` is `not rst_n`, the other bits are the ports themselves (R60). A port that
shows no Boolean gives no word (R69, R149). -/
def portsWord (q : Ports) : Option OpWord :=
  match levelBit q.rstN, levelBit q.tick, levelBit q.hbIn, levelBit q.strap2, levelBit q.strap1, levelBit q.strap0 with
  | some n, some k, some h, some s2, some s1, some s0 =>
    some (BitVec.ofBool (!n) ++ BitVec.ofBool k ++ BitVec.ofBool h
      ++ (BitVec.ofBool s2 ++ BitVec.ofBool s1 ++ BitVec.ofBool s0))
  | _, _, _, _, _, _ => none

/-- The port levels that carry an operation word (R60). -/
def wordPorts (w : OpWord) : Ports :=
  { rstN := levelOf (!w.rBit)
    tick := levelOf w.kBit
    hbIn := levelOf w.hBit
    strap2 := levelOf (w.getLsbD 2)
    strap1 := levelOf (w.getLsbD 1)
    strap0 := levelOf (w.getLsbD 0) }

/-- The sample of an edge at which the ports carry an operation word, with no reset pulse before it. -/
def wordSample (w : OpWord) : Sample := { ports := wordPorts w, rstPulse := false }

end Sys2Proof.Machine
end

