-- ==== Sys2Proof/Machine/Flags.lean ====
section
/-! DEFINITION. The one-cycle event signals of the block, computed from the state and the inputs of the cycle and never
stored. The block has no condition codes or status flags (10_state.md R37). -/

namespace Sys2Proof.Machine

/-- `satinc_W`: the increment that saturates at the all-ones value of a `W`-bit counter (R17). -/
def satinc (width v : Nat) : Nat := if v < 2 ^ width - 1 then v + 1 else v

/-- `edge`: a rising edge of the heartbeat is reported (R73). -/
def edge (r : Registers) (i : Inputs) : Bool := !i.R && i.H && !r.lastLevel

/-- `acc_tick`: the accumulator counts the tick; an edge in the same cycle wins over it (R81, R90). -/
def accTick (r : Registers) (i : Inputs) : Bool := !i.R && i.K && r.powered && !edge r i

/-- `timeout_cond`: the incremented count reaches the selected threshold (R83). -/
def timeoutCond (p : Params) (r : Registers) (i : Inputs) : Bool :=
  accTick r i && decide (satinc p.wE r.elapsed ≥ threshold p r.cfgSel)

/-- `fire`: the timeout event, held off while the reset line is asserted (R84). -/
def fire (p : Params) (r : Registers) (i : Inputs) : Bool := timeoutCond p r i && !r.resetAsserted

/-- `seq_tick`: the sequencer counts the tick, whatever the power and the heartbeat do (R93, R97). -/
def seqTick (r : Registers) (i : Inputs) : Bool := !i.R && i.K && r.resetAsserted

/-- `release`: the incremented pulse count reaches the pulse width (R94). -/
def release (p : Params) (r : Registers) (i : Inputs) : Bool :=
  seqTick r i && decide (satinc p.wR r.resetElapsed ≥ pulseTicks p)

/-- The event signals of one cycle (R37). -/
structure Events where
  edge : Bool
  accTick : Bool
  timeoutCond : Bool
  fire : Bool
  seqTick : Bool
  release : Bool
deriving DecidableEq, Repr

/-- All event signals of a cycle that starts in `r` with inputs `i`; in a RESET cycle none is 1 (R105). -/
def events (p : Params) (r : Registers) (i : Inputs) : Events :=
  { edge := edge r i
    accTick := accTick r i
    timeoutCond := timeoutCond p r i
    fire := fire p r i
    seqTick := seqTick r i
    release := release p r i }

end Sys2Proof.Machine
end

