-- ==== Sys2Proof/Machine/Ops.lean ====
section
/-! DEFINITION. The shared operations of the block: elaboration, the register writes of a cycle (43_supervisor_fsm.md
R103), the RESET load (R105), the asynchronous part of reset (R24, R142, R143), the outputs and the state view (R28,
R38), and the sampling of the next operation word (R58, R59). The block takes no exception and returns from none (R122,
R124): its failure episode is entered by the `fire` writes and left by the `edge` writes of the cycle below. -/

namespace Sys2Proof.Machine

/-- Elaboration: the machine of a record, its registers without a value, or the refusal of a record that is not well
formed (R13, R43). -/
def elaborate (p : Params) : Except Refusal State :=
  if p.wellFormed then .ok { params := p, regs := none, inputs := [], draws := 0 } else .error .illFormedRecord

/-- The registers a clock edge with reset asserted leaves; they depend on the inputs alone (R42, R105). -/
def resetRegisters (h : Bool) (sel : Sel) : Registers :=
  { cfgSel := sel
    lastLevel := h
    elapsed := 0
    resetElapsed := 0
    powered := false
    resetAsserted := true }

/-- The heartbeat edge detector's write (R74). -/
def nextLastLevel (i : Inputs) : Bool := i.H

/-- The timer accumulator's write (R82). -/
def nextElapsed (p : Params) (r : Registers) (i : Inputs) : Nat :=
  if edge r i then 0 else if accTick r i then satinc p.wE r.elapsed else r.elapsed

/-- The reset sequencer's write (R95). -/
def nextResetElapsed (p : Params) (r : Registers) (i : Inputs) : Nat :=
  if fire p r i then 0 else if seqTick r i then satinc p.wR r.resetElapsed else r.resetElapsed

/-- The supervisor's write of the power output (R103). -/
def nextPowered (p : Params) (r : Registers) (i : Inputs) : Bool :=
  if edge r i then true else if fire p r i then false else r.powered

/-- The supervisor's write of the reset line (R103). -/
def nextResetAsserted (p : Params) (r : Registers) (i : Inputs) : Bool :=
  if fire p r i then true else if release p r i then false else r.resetAsserted

/-- The step of one cycle with reset deasserted: all writes take effect together (R16, R50, R103). -/
def cycle (p : Params) (r : Registers) (i : Inputs) : Registers :=
  { cfgSel := r.cfgSel
    lastLevel := nextLastLevel i
    elapsed := nextElapsed p r i
    resetElapsed := nextResetElapsed p r i
    powered := nextPowered p r i
    resetAsserted := nextResetAsserted p r i }

/-- A non-RESET operation with tick `k` and heartbeat level `h`: the model fault `NotReset` in the state with no value
(R125), the cycle step otherwise (R103). -/
def runCycle (k h : Bool) (s : State) : Host.Outcome State Fault Refusal :=
  match s.regs with
  | none => .fault .notReset
  | some r => .next { s with regs := some (cycle s.params r { R := false, K := k, H := h, S := 0 }) }

/-- The RESET operation, defined in every state (R105, R125). -/
def runReset (h : Bool) (sel : Sel) (s : State) : Host.Outcome State Fault Refusal :=
  .next { s with regs := some (resetRegisters h sel) }

/-- What the assertion of `rst_n` does to the registers at once, without a clock edge (R24, R142). No step calls it: if
the assertion lasts to the next edge, RESET applies everything there (D3), and if it does not, the state has no value
(R143, log entry 6). -/
def asyncAssert (r : Registers) : Registers :=
  { r with powered := false, resetAsserted := true, elapsed := 0, resetElapsed := 0 }

/-- A reset pulse that covers no clock edge: the state after it has no value (R143, log entry 6). -/
def unclockedResetPulse (s : State) : State := { s with regs := none }

/-- The output ports, functions of the registers alone (R28). -/
def outputs (r : Registers) : Outputs := { resetN := !r.resetAsserted, pwrEn := r.powered }

/-- What the output ports show while `rst_n` is asserted or not: both are low as soon as reset is asserted (R24, R142);
otherwise they are the registers' (R28), and nothing is said of them in the state with no value (R118). -/
def portOutputs (rstAsserted : Bool) (s : State) : Option Outputs :=
  if rstAsserted then some { resetN := false, pwrEn := false } else s.regs.map outputs

/-- The supervisor state named by `powered` and `reset_asserted` (R38). -/
def fsm (r : Registers) : Fsm :=
  match r.powered, r.resetAsserted with
  | true, false => .normal
  | false, true => .failed
  | false, false => .recovering
  | true, true => .restoredInReset

/-- The 2-bit code `{powered, reset_asserted}` of a supervisor state (R38). -/
def fsmCode : Fsm → BitVec 2
  | .normal => 0b10#2
  | .failed => 0b01#2
  | .recovering => 0b00#2
  | .restoredInReset => 0b11#2

/-- The word sampled at the next clock edge, with the state in which it has been taken: the next placed sample, or
the environment's own free choice when none is placed (R58, R59, R121). A machine of an ill-formed record samples
nothing (R13), a port without a Boolean level gives no word (R69, R149), and a reset pulse that covered no clock edge
has left the registers without a value (R143). -/
def sampleWord (s : State) : Except Refusal (OpWord × State) :=
  if s.params.wellFormed then
    match s.inputs with
    | [] => .ok (Config.envWord s.draws, { s with draws := s.draws + 1 })
    | q :: rest =>
      match portsWord q.ports with
      | some w => .ok (w, { (if q.rstPulse then unclockedResetPulse s else s) with inputs := rest })
      | none => .error .nonBooleanLevel
  else .error .illFormedRecord

/-- The state with word `w` on the ports at the next clock edge, in place of the sample that stood there. -/
def placeWord (w : OpWord) (s : State) : State :=
  { s with inputs := wordSample w :: s.inputs.drop 1 }

end Sys2Proof.Machine
end

