-- ==== Sys2Proof/Machine/Idle.lean ====
section
/-! DEFINITION. The two operations of a cycle without a tick. -/

namespace Sys2Proof.Machine

/-- `IDLE_L`: the cycle step with `in.K = 0`, `in.H = 0` (R106). -/
def execIdleL (s : State) : Host.Outcome State Fault Refusal := runCycle false false s

/-- `IDLE_H`: the cycle step with `in.K = 0`, `in.H = 1` (R107). -/
def execIdleH (s : State) : Host.Outcome State Fault Refusal := runCycle false true s

end Sys2Proof.Machine
end

