-- ==== Sys2Proof/Machine/Reset.lean ====
section
/-! DEFINITION. The RESET operation. -/

namespace Sys2Proof.Machine

/-- `RESET sel=<sel> hb=<h>` (R105). -/
def execReset (h : Bool) (sel : Sel) (s : State) : Host.Outcome State Fault Refusal := runReset h sel s

end Sys2Proof.Machine
end

