-- ==== Sys2Proof/Machine/Tick.lean ====
section
/-! DEFINITION. The two operations of a cycle with a tick. -/

namespace Sys2Proof.Machine

/-- `TICK_L`: the cycle step with `in.K = 1`, `in.H = 0` (R108). -/
def execTickL (s : State) : Host.Outcome State Fault Refusal := runCycle true false s

/-- `TICK_H`: the cycle step with `in.K = 1`, `in.H = 1` (R109). -/
def execTickH (s : State) : Host.Outcome State Fault Refusal := runCycle true true s

end Sys2Proof.Machine
end

