-- ==== Sys2Proof/Machine/Dispatch.lean ====
section
/-! DEFINITION. One arm per operation (30_encoding.md R62). -/

namespace Sys2Proof.Machine

def exec (i : Instr) (s : State) : Host.Outcome State Fault Refusal :=
  match i with
  | .reset h sel => Sys2Proof.Machine.execReset h sel s
  | .idleL => Sys2Proof.Machine.execIdleL s
  | .idleH => Sys2Proof.Machine.execIdleH s
  | .tickL => Sys2Proof.Machine.execTickL s
  | .tickH => Sys2Proof.Machine.execTickH s

end Sys2Proof.Machine
end

