-- ==== Sys2Proof/Machine/Step.lean ====
section
/-! DEFINITION. One step: one clock cycle (R20, R154). -/

namespace Sys2Proof.Machine

/-- One clock cycle: sample the inputs of the edge, decode them, perform the operation (R59, R62, R103, R105). -/
def step (s : State) : Host.Outcome State Fault Refusal :=
  match sampleWord s with
  | .error e => .refused e
  | .ok (w, t) => exec (decodeWord w) t

/-- `s` with the word `w` on the input ports at the next clock edge; its bits above the sixth are none of the block's
ports (log entry 5). -/
def State.withFetchWord (s : State) (nbits w : Nat) : State :=
  placeWord (BitVec.ofNat 6 (w % 2 ^ nbits)) s

end Sys2Proof.Machine
end

