-- ==== Sys2Proof/Machine/Stimulus.lean ====
section
/-! DEFINITION. The stimulus syntax and the pseudo-operations (30_encoding.md R18, R70, R71). They name input sequences
and are not part of the hardware (D24). -/

namespace Sys2Proof.Machine

/-- `op × n` (R18). -/
def timesOp (n : Nat) (i : Instr) : List Instr := List.replicate n i

/-- `REPEAT n { body }` (R71). -/
def repeatBody (n : Nat) (body : List Instr) : List Instr := (List.replicate n body).flatten

/-- `BOOT s`: one reset cycle with the heartbeat low (R71). -/
def bootOps (sel : Sel) : List Instr := [.reset false sel]

/-- `BEAT`: the second cycle is an edge whatever the level was (R71). -/
def beatOps : List Instr := [.idleL, .idleH]

/-- `WAIT_L n` (R71). -/
def waitL (n : Nat) : List Instr := timesOp n .tickL

/-- `WAIT_H n` (R71). -/
def waitH (n : Nat) : List Instr := timesOp n .tickH

/-- `HOLD_L n` (R71). -/
def holdL (n : Nat) : List Instr := timesOp n .idleL

/-- `HOLD_H n` (R71). -/
def holdH (n : Nat) : List Instr := timesOp n .idleH

/-- The textual form of one operation (R70). -/
def opText : Instr → String
  | .reset h sel => "RESET sel=" ++ toString sel.toNat ++ " hb=" ++ (if h then "1" else "0")
  | .idleL => "IDLE_L"
  | .idleH => "IDLE_H"
  | .tickL => "TICK_L"
  | .tickH => "TICK_H"

/-- The twenty operations, each with a textual form of its own (R62, R70). -/
def allOps : List Instr :=
  [.idleL, .idleH, .tickL, .tickH]
    ++ [0, 1, 2, 3, 4, 5, 6, 7].map (fun sel => Instr.reset false sel)
    ++ [0, 1, 2, 3, 4, 5, 6, 7].map (fun sel => Instr.reset true sel)

/-- The operation a text names, if it is the `op` of the grammar (R70). -/
def parseOp (text : String) : Option Instr := allOps.find? (fun i => opText i == text)

end Sys2Proof.Machine
end

