-- ==== Sys2Proof/Machine/Timing.lean ====
section
/-! DEFINITION. The real time of ticks (70_reset_and_hazards.md R155 to R157). No rule of the cycle reads it: the block
counts ticks, and these functions say when a counted tick comes if ticks are exactly periodic (R8, R154). Times are in
microseconds. -/

namespace Sys2Proof.Machine

/-- The time of the `k`-th tick (`k` from 1) after the instant `t0`, the first one coming `phi` later (R155). -/
def tickTime (p : Params) (t0 phi k : Nat) : Nat := t0 + phi + (k - 1) * p.tickPeriodUs

/-- When a silent device's timeout fires: at tick `N` after the edge at `te` (R155). -/
def fireTime (p : Params) (sel : Sel) (te phi : Nat) : Nat := tickTime p te phi (threshold p sel)

/-- When the pulse started by that fire is released: `P` tick periods later (R156). -/
def releaseTime (p : Params) (sel : Sel) (te phi : Nat) : Nat :=
  fireTime p sel te phi + pulseTicks p * p.tickPeriodUs

/-- When the boot pulse is released: at tick `P` after reset is deasserted at `tr` (R157). -/
def bootReleaseTime (p : Params) (tr phi : Nat) : Nat := tickTime p tr phi (pulseTicks p)

end Sys2Proof.Machine
end

