-- ==== Sys2Proof/Safety.lean ====
section
/-! DEFINITION. The terms claims are stated in: runs of operations, what the environment's sequence contains, and the
invariant of the registers. -/

namespace Sys2Proof.Machine

/-- The block in state `s` with registers `r`. -/
def State.withRegs (s : State) (r : Registers) : State := { s with regs := some r }

/-- A run: the operations performed in order, one cycle each, stopping at the first stop (R53, R118). -/
def runOps : List Instr → State → Host.Outcome State Fault Refusal
  | [], s => .next s
  | i :: is, s =>
    match exec i s with
    | .next t => runOps is t
    | .fault e => .fault e
    | .refused e => .refused e

/-- The operation is RESET. -/
def isReset (i : Instr) : Bool := (inputsOf i).R

/-- The operation's cycle has a tick the block can count. -/
def isTick (i : Instr) : Bool := (inputsOf i).K

/-- The heartbeat level of the operation's cycle. -/
def levelIn (i : Instr) : Bool := (inputsOf i).H

/-- None of the operations is RESET. -/
def noReset (is : List Instr) : Bool := is.all (fun i => !isReset i)

/-- How many of the operations' cycles have a tick. -/
def tickCount : List Instr → Nat
  | [] => 0
  | i :: is => (if isTick i then 1 else 0) + tickCount is

/-- After a sampled level `last`, no operation's cycle reports an edge: none outside reset samples the heartbeat high
after a low level (R75). -/
def silent : Bool → List Instr → Bool
  | _, [] => true
  | last, i :: is => !(!isReset i && levelIn i && !last) && silent (levelIn i) is

/-- After a sampled level `last`, no operation's cycle has a tick, an edge or a RESET: what can lie between a cycle and
the next counted tick (R150). -/
def uneventful (last : Bool) (is : List Instr) : Bool := noReset is && silent last is && decide (tickCount is = 0)

/-- The heartbeats come in time: after a sampled level `last` and `count` ticks since the last low-to-high transition,
the operations hold no RESET, and fewer than `n` ticks fall between a transition and the next or the end (R120). -/
def inTime (n : Nat) : Bool → Nat → List Instr → Bool
  | _, _, [] => true
  | last, count, i :: is =>
    !isReset i &&
      (if levelIn i && !last then inTime n true 0 is
       else
         decide (count + (if isTick i then 1 else 0) < n)
           && inTime n (levelIn i) (count + (if isTick i then 1 else 0)) is)

/-- The invariant of the registers under a record (R29, R32, R44, R89): the counters fit their widths; while the reset
line is asserted the pulse count is below `P`; and `elapsed` has the bound of its supervisor state. -/
abbrev Registers.Inv (p : Params) (r : Registers) : Prop :=
  r.elapsed ≤ 2 ^ p.wE - 1 ∧
  r.resetElapsed ≤ 2 ^ p.wR - 1 ∧
  (r.resetAsserted = true → r.resetElapsed + 1 ≤ pulseTicks p) ∧
  (r.powered = true → r.resetAsserted = true → r.elapsed ≤ r.resetElapsed) ∧
  (r.powered = true → r.resetAsserted = false → r.elapsed ≤ max (threshold p r.cfgSel - 1) (pulseTicks p)) ∧
  (r.powered = false → r.elapsed ≤ max (threshold p r.cfgSel) (pulseTicks p + 1))

/-- The invariant of the machine: a well-formed record, and registers, where they have a value, within their
invariant (R13, R44). -/
def State.Inv (s : State) : Prop := s.params.wellFormed = true ∧ ∀ r, s.regs = some r → r.Inv s.params

end Sys2Proof.Machine
end

