-- ==== Sys2Proof/Certificates/Slice0/Obligations.lean ====
section
/-! DEFINITION. The statements for the provers. Each docstring names the rules of spec/ it formalises. A statement about
registers speaks of `s.withRegs r`, the block in any state `s` with any registers `r`, reachable or not; the equation
`exec i (s.withRegs r) = .next (s.withRegs q)` says that the operation completes, and that the parameter record and the
environment's inputs are as before. -/

open Sys2Proof Sys2Proof.Machine

/-! ### Encoding -/

/-- R62: the five rows of the table, each by its mask and match, give every word exactly one operation. -/
def Obligations.RowsPartitionWords : Prop :=
  ∀ w : OpWord,
    (w &&& 0b100000#6 = 0b100000#6 → decodeWord w = .reset (w.getLsbD 3) (w.extractLsb' 0 3)) ∧
    (w &&& 0b111000#6 = 0b000000#6 → decodeWord w = .idleL) ∧
    (w &&& 0b111000#6 = 0b001000#6 → decodeWord w = .idleH) ∧
    (w &&& 0b111000#6 = 0b010000#6 → decodeWord w = .tickL) ∧
    (w &&& 0b111000#6 = 0b011000#6 → decodeWord w = .tickH) ∧
    [decide (w &&& 0b100000#6 = 0b100000#6), decide (w &&& 0b111000#6 = 0b000000#6),
     decide (w &&& 0b111000#6 = 0b001000#6), decide (w &&& 0b111000#6 = 0b010000#6),
     decide (w &&& 0b111000#6 = 0b011000#6)].count true = 1

/-- R62, R63, R69, R70: decoding gives back every operation that was encoded, by word, by byte and as the table
numbers its bits; a word decodes to an operation exactly when it agrees with its canonical word on the bits its row
does not ignore; and the ignored bits of the canonical word are 0. That a word travels in bits 5 to 0 of one byte,
which the clauses on bytes and on the table's 8 bits rest on, is no rule of the spec but the model's choice (log entry
5). -/
def Obligations.DecodeEncodeAgree : Prop :=
  ∀ (i : Instr) (rest : List Byte),
    decodeWord (encode i) = i ∧
    decodeBytes (encodeBytes i ++ rest) = .ok (i, rest) ∧
    decodeTableWord 8 (encode i).toNat = some i ∧
    (∀ w : OpWord, decodeWord w = i ↔ w &&& i.careMask = encode i &&& i.careMask) ∧
    encode i &&& ~~~ i.careMask = 0

/-- 95_test_vectors.md X1 to X15: words written out from the encoding, and what they decode to. -/
def Obligations.WrittenWordsDecode : Prop :=
  decodeWord 0b000000#6 = .idleL ∧ decodeWord 0b000111#6 = .idleL ∧
  decodeWord 0b001000#6 = .idleH ∧ decodeWord 0b001111#6 = .idleH ∧
  decodeWord 0b010000#6 = .tickL ∧ decodeWord 0b010111#6 = .tickL ∧
  decodeWord 0b011000#6 = .tickH ∧ decodeWord 0b011010#6 = .tickH ∧ decodeWord 0b011111#6 = .tickH ∧
  decodeWord 0b100000#6 = .reset false 0 ∧ decodeWord 0b110000#6 = .reset false 0 ∧
  decodeWord 0b100101#6 = .reset false 5 ∧ decodeWord 0b101101#6 = .reset true 5 ∧
  decodeWord 0b101011#6 = .reset true 3 ∧ decodeWord 0b111111#6 = .reset true 7

/-- R60: the ports show the word `w` exactly when `rst_n` is the complement of bit 5 and the other ports are the bits
named for them; and the operation of the word has those bits as its inputs, except the ones its row ignores. -/
def Obligations.PortsCarryTheWord : Prop :=
  ∀ w : OpWord,
    (∀ q : Ports, portsWord q = some w ↔
      q = { rstN := if w.getLsbD 5 then .low else .high
            tick := if w.getLsbD 4 then .high else .low
            hbIn := if w.getLsbD 3 then .high else .low
            strap2 := if w.getLsbD 2 then .high else .low
            strap1 := if w.getLsbD 1 then .high else .low
            strap0 := if w.getLsbD 0 then .high else .low }) ∧
    (inputsOf (decodeWord w)).R = w.getLsbD 5 ∧
    (inputsOf (decodeWord w)).H = w.getLsbD 3 ∧
    (w.getLsbD 5 = false → (inputsOf (decodeWord w)).K = w.getLsbD 4) ∧
    (w.getLsbD 5 = true → (inputsOf (decodeWord w)).S = w.extractLsb' 0 3)

/-- R70: the textual form of an operation names that operation and no other. -/
def Obligations.OperationTextNamesIt : Prop :=
  ∀ i : Instr, parseOp (opText i) = some i ∧ ∀ j : Instr, opText j = opText i → j = i

/-! ### The step -/

/-- R59, R62, R121, R143: a step samples the word the ports show at the next clock edge and performs the operation it
decodes to, in the state in which that sample has been taken, which has no value if a reset pulse that covered no clock
edge came before it; where no sample has been placed, the word is the environment's own; and `withFetchWord` places the
word the next step performs. How a word comes to the ports is no rule of the spec but the model's choice: the list of
placed samples (log entry 3), the word drawn from `Config.envWord` and its counter where the list is empty (log entry
4), the mark that says a pulse came (log entry 6), and that `withFetchWord` takes the low six of the `nbits` bits it is
given and drops the bits above the sixth (log entry 5), where `decodeTableWord` rejects a byte in which one of them is
set. -/
def Obligations.StepRunsTheDecodedOperation : Prop :=
  ∀ s : State, s.params.wellFormed = true →
    (∀ q w rest, s.inputs = q :: rest → portsWord q.ports = some w →
      (q.rstPulse = false → step s = exec (decodeWord w) { s with inputs := rest }) ∧
      (q.rstPulse = true → step s = exec (decodeWord w) { s with inputs := rest, regs := none })) ∧
    (s.inputs = [] →
      step s = exec (decodeWord (Config.envWord s.draws)) { s with draws := s.draws + 1 }) ∧
    (∀ nbits w, step (s.withFetchWord nbits w) =
      exec (decodeWord (BitVec.ofNat 6 (w % 2 ^ nbits))) { s with inputs := s.inputs.drop 1 })

/-- R13, R69, R149: a step is refused exactly for an ill-formed record or a port level that is not Boolean. The
record comes first, since R13 refuses it before the block runs; that the state carries it, and the samples, is the
model's choice (log entries 2 and 3). -/
def Obligations.StepIsRefusedExactly : Prop :=
  ∀ (s : State) (e : Refusal), step s = .refused e ↔
    (s.params.wellFormed = false ∧ e = .illFormedRecord) ∨
    (s.params.wellFormed = true ∧ e = .nonBooleanLevel ∧
      ∃ q rest, s.inputs = q :: rest ∧
        Level.notBoolean ∈ [q.ports.rstN, q.ports.tick, q.ports.hbIn, q.ports.strap2, q.ports.strap1, q.ports.strap0])

/-- R69, R145: every word is performed, and the bits its row ignores change nothing: `K` in a RESET word, `S` in the
others (how a word is placed is the model's choice, log entry 3). -/
def Obligations.IgnoredBitsChangeNothing : Prop :=
  ∀ (s : State) (w v : OpWord), w.getLsbD 5 = v.getLsbD 5 → w.getLsbD 3 = v.getLsbD 3 →
    (w.getLsbD 5 = true → w.extractLsb' 0 3 = v.extractLsb' 0 3) →
    (w.getLsbD 5 = false → w.getLsbD 4 = v.getLsbD 4) →
    step (placeWord w s) = step (placeWord v s) ∧
    (s.params.wellFormed = true → ∀ e, step (placeWord w s) ≠ .refused e)

/-- R41, R50, R58: a step that completes leaves the parameter record, takes one sample, and leaves registers that
have a value. The fields for the record, the samples and the draws are the model's choice (log entries 2 to 4). -/
def Obligations.StepFrame : Prop :=
  ∀ s t : State, step s = .next t →
    t.params = s.params ∧ t.inputs = s.inputs.drop 1 ∧
    t.draws = s.draws + (if s.inputs = [] then 1 else 0) ∧ ∃ r, t.regs = some r

/-- R53, R121: the machine run for as many cycles as words are placed is the operations of those words performed in
order (how words are placed is the model's choice, log entry 3). -/
def Obligations.RunsComposeOperations : Prop :=
  ∀ (ws : List OpWord) (rest : List Sample) (s : State), s.params.wellFormed = true →
    Sys2Proof.core.run ws.length { s with inputs := ws.map wordSample ++ rest } =
      runOps (ws.map decodeWord) { s with inputs := rest }

/-! ### The parameter record -/

/-- R13: a machine is built of a record exactly when every threshold and the pulse width are at least 1 and fit their
counters; its registers have no value yet (R43). That the machine carries its record is the model's choice (log entry
2). -/
def Obligations.ElaborationRefusesIllFormedRecords : Prop :=
  ∀ p : Params,
    let fits := (∀ sel : Sel, 1 ≤ threshold p sel ∧ threshold p sel ≤ 2 ^ p.wE - 1) ∧
      1 ≤ pulseTicks p ∧ pulseTicks p ≤ 2 ^ p.wR - 1
    (fits → ∃ s, elaborate p = .ok s ∧ s.params = p ∧ s.regs = none) ∧
    (¬ fits → elaborate p = .error .illFormedRecord)

/-- R9, R11, R14, R88: the default tables of both selector mappings, as derived from the nominal durations, well formed
and separated. -/
def Obligations.DefaultTables : Prop :=
  [0, 1, 2, 3, 4, 5, 6, 7].map (threshold Params.default) = [501, 1001, 3001, 5001, 10001, 15001, 30001, 60001] ∧
  [0, 1, 2, 3, 4, 5, 6, 7].map (threshold Params.swapped) = [1001, 501, 3001, 5001, 10001, 15001, 30001, 60001] ∧
  [0, 1, 2, 3, 4, 5, 6, 7].map (nominalUs .clean) =
    [500000, 1000000, 3000000, 5000000, 10000000, 15000000, 30000000, 60000000] ∧
  [0, 1, 2, 3, 4, 5, 6, 7].map (nominalUs .swap01) =
    [1000000, 500000, 3000000, 5000000, 10000000, 15000000, 30000000, 60000000] ∧
  Params.default.timeoutTicks = derivedTicks 1000 .clean ∧ Params.swapped.timeoutTicks = derivedTicks 1000 .swap01 ∧
  pulseTicks Params.default = 100 ∧ Params.default.wE = 16 ∧ Params.default.wR = 8 ∧
  Params.default.tickPeriodUs = 1000 ∧ Params.default.selMap = .clean ∧
  Params.default.wellFormed = true ∧ Params.default.separated = true ∧
  Params.swapped.wellFormed = true ∧ Params.swapped.separated = true

/-- R17: the counters' only arithmetic is the increment that saturates at the all-ones value. -/
def Obligations.SaturatingIncrement : Prop :=
  ∀ width v : Nat,
    (v < 2 ^ width - 1 → satinc width v = v + 1) ∧
    (2 ^ width - 1 ≤ v → satinc width v = v) ∧
    (v ≤ 2 ^ width - 1 → satinc width v ≤ 2 ^ width - 1)

/-! ### The five operations -/

/-- R105: RESET, from every state, the one with no value among them. -/
def Obligations.ResetResult : Prop :=
  ∀ (s : State) (h : Bool) (sel : Sel),
    exec (.reset h sel) s = .next (s.withRegs
      { cfgSel := sel, lastLevel := h, elapsed := 0, resetElapsed := 0, powered := false, resetAsserted := true }) ∧
    (∀ r, events s.params r (inputsOf (.reset h sel)) = ⟨false, false, false, false, false, false⟩) ∧
    (∀ t r, exec (.reset h sel) s = .next t → t.regs = some r →
      fsm r = .failed ∧ outputs r = { resetN := false, pwrEn := false }) ∧
    (∀ k : Bool, decodeWord (BitVec.ofBool true ++ BitVec.ofBool k ++ BitVec.ofBool h ++ sel) = .reset h sel) ∧
    (∀ h' sel', runOps [.reset h' sel', .reset h sel] s = exec (.reset h sel) s)

/-- R106: IDLE_L writes `last_level` alone, and arms the edge detector. -/
def Obligations.IdleLResult : Prop :=
  ∀ (s : State) (r : Registers),
    exec .idleL (s.withRegs r) = .next (s.withRegs { r with lastLevel := false }) ∧
    events s.params r (inputsOf .idleL) = ⟨false, false, false, false, false, false⟩ ∧
    (∀ q, exec .idleL (s.withRegs r) = .next (s.withRegs q) →
      fsm q = fsm r ∧ edge q (inputsOf .idleH) = true ∧ edge q (inputsOf .tickH) = true) ∧
    (s.regs = none → exec .idleL s = .fault .notReset) ∧
    ∀ sel : Sel, decodeWord (0b000#3 ++ sel) = .idleL

/-- R107: IDLE_H, in its edge form and its level form. -/
def Obligations.IdleHResult : Prop :=
  ∀ (s : State) (r : Registers),
    exec .idleH (s.withRegs r) = .next (s.withRegs
      (if r.lastLevel = false then { r with lastLevel := true, elapsed := 0, powered := true }
       else { r with lastLevel := true })) ∧
    events s.params r (inputsOf .idleH) = ⟨!r.lastLevel, false, false, false, false, false⟩ ∧
    (s.regs = none → exec .idleH s = .fault .notReset) ∧
    ∀ sel : Sel, decodeWord (0b001#3 ++ sel) = .idleH

/-- R108: TICK_L, as its pseudocode writes it. -/
def Obligations.TickLResult : Prop :=
  ∀ (s : State) (r : Registers),
    let e := satinc s.params.wE r.elapsed
    let q := satinc s.params.wR r.resetElapsed
    let fires := r.powered = true ∧ e ≥ threshold s.params r.cfgSel ∧ r.resetAsserted = false
    let releases := r.resetAsserted = true ∧ q ≥ pulseTicks s.params
    exec .tickL (s.withRegs r) = .next (s.withRegs
      { cfgSel := r.cfgSel
        lastLevel := false
        elapsed := if r.powered then e else r.elapsed
        resetElapsed := if fires then 0 else if r.resetAsserted then q else r.resetElapsed
        powered := if fires then false else r.powered
        resetAsserted := if fires then true else if releases then false else r.resetAsserted }) ∧
    (fire s.params r (inputsOf .tickL) = true ↔ fires) ∧
    (release s.params r (inputsOf .tickL) = true ↔ releases) ∧
    edge r (inputsOf .tickL) = false ∧
    (s.regs = none → exec .tickL s = .fault .notReset) ∧
    ∀ sel : Sel, decodeWord (0b010#3 ++ sel) = .tickL

/-- R109: TICK_H, in its edge form and its level form. -/
def Obligations.TickHResult : Prop :=
  ∀ (s : State) (r : Registers),
    let e := satinc s.params.wE r.elapsed
    let q := satinc s.params.wR r.resetElapsed
    let edges := r.lastLevel = false
    let fires := ¬ edges ∧ r.powered = true ∧ e ≥ threshold s.params r.cfgSel ∧ r.resetAsserted = false
    let releases := r.resetAsserted = true ∧ q ≥ pulseTicks s.params
    exec .tickH (s.withRegs r) = .next (s.withRegs
      { cfgSel := r.cfgSel
        lastLevel := true
        elapsed := if edges then 0 else if r.powered then e else r.elapsed
        resetElapsed := if fires then 0 else if r.resetAsserted then q else r.resetElapsed
        powered := if edges then true else if fires then false else r.powered
        resetAsserted := if fires then true else if releases then false else r.resetAsserted }) ∧
    (edge r (inputsOf .tickH) = true ↔ edges) ∧
    (fire s.params r (inputsOf .tickH) = true ↔ fires) ∧
    (release s.params r (inputsOf .tickH) = true ↔ releases) ∧
    (s.regs = none → exec .tickH s = .fault .notReset) ∧
    ∀ sel : Sel, decodeWord (0b011#3 ++ sel) = .tickH

/-- R103: the step of one cycle, for all four operations with reset deasserted: every one of them completes with the
writes of the rule, computed from the registers before it. -/
def Obligations.CycleStep : Prop :=
  ∀ (s : State) (r : Registers) (i : Instr), i ∈ [Instr.idleL, .idleH, .tickL, .tickH] →
    let K := isTick i
    let H := levelIn i
    let edge := H && !r.lastLevel
    let accTick := K && r.powered && !edge
    let timeoutCond := accTick && decide (satinc s.params.wE r.elapsed ≥ threshold s.params r.cfgSel)
    let fire := timeoutCond && !r.resetAsserted
    let seqTick := K && r.resetAsserted
    let release := seqTick && decide (satinc s.params.wR r.resetElapsed ≥ pulseTicks s.params)
    exec i (s.withRegs r) = .next (s.withRegs
      { lastLevel := H
        elapsed := if edge then 0 else if accTick then satinc s.params.wE r.elapsed else r.elapsed
        resetElapsed := if fire then 0 else if seqTick then satinc s.params.wR r.resetElapsed else r.resetElapsed
        powered := if edge then true else if fire then false else r.powered
        resetAsserted := if fire then true else if release then false else r.resetAsserted
        cfgSel := r.cfgSel }) ∧
    events s.params r (inputsOf i) = ⟨edge, accTick, timeoutCond, fire, seqTick, release⟩

/-- The frame of IDLE_L, IDLE_H, TICK_L and TICK_H: every register the operation's rule does not write, or whose write
its condition keeps, is as before (R16, R103, R106 to R109); the block has no memory (R46). -/
def Obligations.OperationFrames : Prop :=
  ∀ (s t : State) (r q : Registers),
    (exec .idleL (s.withRegs r) = .next t → t.regs = some q →
      t.params = s.params ∧ t.inputs = s.inputs ∧ t.draws = s.draws ∧ q.cfgSel = r.cfgSel ∧ q.elapsed = r.elapsed ∧
      q.resetElapsed = r.resetElapsed ∧ q.powered = r.powered ∧ q.resetAsserted = r.resetAsserted) ∧
    (exec .idleH (s.withRegs r) = .next t → t.regs = some q →
      t.params = s.params ∧ t.inputs = s.inputs ∧ t.draws = s.draws ∧ q.cfgSel = r.cfgSel ∧
      q.resetElapsed = r.resetElapsed ∧ q.resetAsserted = r.resetAsserted ∧
      (r.lastLevel = true → q.elapsed = r.elapsed ∧ q.powered = r.powered)) ∧
    (∀ i : Instr, i ∈ [Instr.tickL, .tickH] → exec i (s.withRegs r) = .next t → t.regs = some q →
      t.params = s.params ∧ t.inputs = s.inputs ∧ t.draws = s.draws ∧ q.cfgSel = r.cfgSel ∧
      (edge r (inputsOf i) = false → r.powered = false → q.elapsed = r.elapsed ∧ q.powered = false) ∧
      (edge r (inputsOf i) = false → fire s.params r (inputsOf i) = false → q.powered = r.powered) ∧
      (fire s.params r (inputsOf i) = false → r.resetAsserted = false →
        q.resetElapsed = r.resetElapsed ∧ q.resetAsserted = false) ∧
      (release s.params r (inputsOf i) = false → r.resetAsserted = true → q.resetAsserted = true))

/-! ### No value before the first RESET, and reset -/

/-- R43, R125: the machine is elaborated in the state with no value; there every operation but RESET is the model fault
`NotReset`, and RESET completes. -/
def Obligations.NotResetFault : Prop :=
  (∀ p s, elaborate p = .ok s → s.regs = none) ∧
  ∀ (s : State) (i : Instr), s.regs = none →
    (isReset i = false → exec i s = .fault .notReset) ∧
    (isReset i = true → ∃ r, exec i s = .next (s.withRegs r))

/-- R24, R142, R143: asserting `rst_n` forces the two outputs low at once and the four registers to their reset values,
keeping the two that are loaded at a clock edge; the RESET operation then leaves what it leaves anyway; and a reset
pulse that covers no clock edge leaves a state with no value. That these are functions and no steps of their own is the
model's choice (log entry 6). -/
def Obligations.AsynchronousReset : Prop :=
  ∀ (s : State) (r : Registers) (i : Instr) (h : Bool) (sel : Sel),
    portOutputs true s = some { resetN := false, pwrEn := false } ∧
    (asyncAssert r).powered = false ∧ (asyncAssert r).resetAsserted = true ∧
    (asyncAssert r).elapsed = 0 ∧ (asyncAssert r).resetElapsed = 0 ∧
    (asyncAssert r).cfgSel = r.cfgSel ∧ (asyncAssert r).lastLevel = r.lastLevel ∧
    outputs (asyncAssert r) = { resetN := false, pwrEn := false } ∧
    exec (.reset h sel) (s.withRegs (asyncAssert r)) = exec (.reset h sel) (s.withRegs r) ∧
    (isReset i = false → exec i (unclockedResetPulse s) = .fault .notReset)

/-- R42, R141, with strap value 0, the heartbeat low and the default record, which are the model's choice (log entries
1 and 2): the state after reset is FAILED with both outputs low and both counters 0, it is what RESET leaves, and no
input has been placed in it (log entry 3). -/
def Obligations.StateAfterReset : Prop :=
  State.reset.regs = some { cfgSel := 0, lastLevel := false, elapsed := 0, resetElapsed := 0,
                            powered := false, resetAsserted := true } ∧
  State.reset.params = Params.default ∧ State.reset.inputs = [] ∧
  (∀ r, State.reset.regs = some r → fsm r = .failed) ∧
  portOutputs false State.reset = some { resetN := false, pwrEn := false } ∧
  exec (.reset false 0) State.reset = .next State.reset

/-- R118, R121: from any two states of one record, whatever their registers and the state with no value among them, a
run that starts with a RESET completes, and both runs end with the same registers. -/
def Obligations.RunsAreDeterminedAfterReset : Prop :=
  ∀ (p : Params) (h : Bool) (sel : Sel) (ops : List Instr),
    ∃ r, ∀ s : State, s.params = p → runOps (.reset h sel :: ops) s = .next (s.withRegs r)

/-- R146: after RESET, while no edge comes, power stays cut, and the reset line is low until the `P`-th tick and high
from it on; the first edge restores power, and clears `elapsed`. -/
def Obligations.BootSequence : Prop :=
  ∀ (s : State) (h : Bool) (sel : Sel) (ops : List Instr), s.params.wellFormed = true →
    noReset ops = true → silent h ops = true →
    ∃ r, runOps (.reset h sel :: ops) s = .next (s.withRegs r) ∧
      r.powered = false ∧ r.resetAsserted = decide (tickCount ops < pulseTicks s.params) ∧
      ∀ j, edge r (inputsOf j) = true →
        ∃ q, exec j (s.withRegs r) = .next (s.withRegs q) ∧ q.powered = true ∧ q.elapsed = 0

/-! ### heartbeat_edge_detector -/

/-- R73: the edge function. -/
def Obligations.EdgeFunction : Prop :=
  ∀ (r : Registers) (i : Inputs), edge r i = true ↔ i.R = false ∧ i.H = true ∧ r.lastLevel = false

/-- R74: every operation, RESET among them, leaves `last_level` at the level sampled in its cycle. -/
def Obligations.LevelTracking : Prop :=
  ∀ (s : State) (r : Registers) (i : Instr),
    ∃ q, exec i (s.withRegs r) = .next (s.withRegs q) ∧ q.lastLevel = levelIn i

/-- R75: after any cycle, reset or not, a cycle with reset deasserted is an edge exactly when it samples the heartbeat
high and the cycle before it sampled it low. -/
def Obligations.EdgeOncePerTransition : Prop :=
  ∀ (s t : State) (q : Registers) (i j : Instr), exec i s = .next t → t.regs = some q → isReset j = false →
    (edge q (inputsOf j) = true ↔ levelIn j = true ∧ levelIn i = false)

/-- R76: while the heartbeat stays high, with reset deasserted, no cycle but the first is an edge, in every state. -/
def Obligations.HeldLevelIsNotAnEdge : Prop :=
  ∀ (s : State) (r : Registers) (i j : Instr) (between : List Instr),
    (∀ k ∈ i :: j :: between, isReset k = false ∧ levelIn k = true) →
    ∃ q, runOps (i :: between) (s.withRegs r) = .next (s.withRegs q) ∧ edge q (inputsOf j) = false

/-- R78: a RESET cycle reports no edge; if it sampled the heartbeat high there is no edge until the heartbeat has been
sampled low, and if it sampled it low the first cycle sampling it high is an edge. -/
def Obligations.FirstEdgeAfterReset : Prop :=
  ∀ (s : State) (h : Bool) (sel : Sel) (j : Instr) (between : List Instr),
    (∀ r, edge r (inputsOf (.reset h sel)) = false) ∧
    ((∀ k ∈ between, isReset k = false ∧ levelIn k = h) → isReset j = false → levelIn j = true →
      ∃ q, runOps (.reset h sel :: between) s = .next (s.withRegs q) ∧ edge q (inputsOf j) = !h)

/-- R77, R79: an edge, in every supervisor state, with or without a tick, clears `elapsed` and leaves the device powered;
it leaves the pulse to the sequencer. -/
def Obligations.EdgeRestoresPower : Prop :=
  ∀ (s : State) (r : Registers) (i : Instr), edge r (inputsOf i) = true →
    ∃ q, exec i (s.withRegs r) = .next (s.withRegs q) ∧ q.elapsed = 0 ∧ q.powered = true ∧
      q.resetElapsed = (if seqTick r (inputsOf i) then satinc s.params.wR r.resetElapsed else r.resetElapsed) ∧
      q.resetAsserted = (if release s.params r (inputsOf i) then false else r.resetAsserted)

/-! ### timer_accumulator -/

/-- R81, R82: which ticks are counted, and what `elapsed` becomes in every operation. -/
def Obligations.ElapsedUpdate : Prop :=
  ∀ (s : State) (r : Registers) (i : Instr),
    (accTick r (inputsOf i) = true ↔
      isReset i = false ∧ isTick i = true ∧ r.powered = true ∧ edge r (inputsOf i) = false) ∧
    ∃ q, exec i (s.withRegs r) = .next (s.withRegs q) ∧
      q.elapsed = if isReset i then 0 else if edge r (inputsOf i) then 0
        else if accTick r (inputsOf i) then satinc s.params.wE r.elapsed else r.elapsed

/-- R83, R84: the timeout condition is met on a counted tick whose incremented count reaches the threshold; it fires
unless the reset line is asserted. Once held off, it is met again at every counted tick that comes before a RESET or an
edge, whatever cycles lie between, and fires at one that starts with the reset line released; until there is a tick,
the device stays powered. -/
def Obligations.TimeoutAndFire : Prop :=
  ∀ (s : State) (r : Registers) (i : Instr),
    (timeoutCond s.params r (inputsOf i) = true ↔
      accTick r (inputsOf i) = true ∧ satinc s.params.wE r.elapsed ≥ threshold s.params r.cfgSel) ∧
    (fire s.params r (inputsOf i) = true ↔
      timeoutCond s.params r (inputsOf i) = true ∧ r.resetAsserted = false) ∧
    (timeoutCond s.params r (inputsOf i) = true → fire s.params r (inputsOf i) = false →
      ∀ ops, noReset ops = true → silent (levelIn i) ops = true →
        ∃ q, runOps (i :: ops) (s.withRegs r) = .next (s.withRegs q) ∧ (tickCount ops = 0 → q.powered = true) ∧
          ∀ j, accTick q (inputsOf j) = true → timeoutCond s.params q (inputsOf j) = true ∧
            fire s.params q (inputsOf j) = !q.resetAsserted)

/-- R85: after a fire, no operation fires until an edge, whatever comes, RESET cycles among them; and an edge restarts
the accumulator from 0. -/
def Obligations.FireOncePerEpisode : Prop :=
  ∀ (s : State) (r : Registers) (i : Instr) (ops : List Instr),
    fire s.params r (inputsOf i) = true → silent (levelIn i) ops = true →
    ∃ q, runOps (i :: ops) (s.withRegs r) = .next (s.withRegs q) ∧ q.powered = false ∧
      (∀ j, fire s.params q (inputsOf j) = false) ∧
      (∀ j, edge q (inputsOf j) = true →
        ∃ u, exec j (s.withRegs q) = .next (s.withRegs u) ∧ u.powered = true ∧ u.elapsed = 0)

/-- R86: while the device is unpowered, no tick is counted, and `elapsed` keeps its value until an edge. -/
def Obligations.SuspendedWhileUnpowered : Prop :=
  ∀ (s : State) (r : Registers) (ops : List Instr), r.powered = false → noReset ops = true →
    silent r.lastLevel ops = true →
    ∃ q, runOps ops (s.withRegs r) = .next (s.withRegs q) ∧ q.powered = false ∧ q.elapsed = r.elapsed ∧
      (∀ j, accTick q (inputsOf j) = false) ∧
      (∀ j, edge q (inputsOf j) = true → ∃ u, exec j (s.withRegs q) = .next (s.withRegs u) ∧ u.elapsed = 0)

/-- R89: in every state reached from a RESET, `elapsed` stays within its bound, and no counted tick of either counter
saturates when `P + 1` fits `W_E`. -/
def Obligations.SaturationNeverBinds : Prop :=
  ∀ (s : State) (h : Bool) (sel : Sel) (ops : List Instr), s.params.wellFormed = true →
    ∃ r, runOps (.reset h sel :: ops) s = .next (s.withRegs r) ∧
      r.elapsed ≤ max (threshold s.params r.cfgSel) (pulseTicks s.params + 1) ∧
      (fsm r = .restoredInReset → r.elapsed ≤ pulseTicks s.params) ∧
      (∀ j, seqTick r (inputsOf j) = true → satinc s.params.wR r.resetElapsed = r.resetElapsed + 1) ∧
      (pulseTicks s.params + 1 ≤ 2 ^ s.params.wE - 1 →
        ∀ j, accTick r (inputsOf j) = true → satinc s.params.wE r.elapsed = r.elapsed + 1)

/-- R90: an edge and a tick in the same cycle: the edge wins, even at the threshold. -/
def Obligations.EdgeWinsOverTick : Prop :=
  ∀ (s : State) (r : Registers), r.lastLevel = false →
    accTick r (inputsOf .tickH) = false ∧ timeoutCond s.params r (inputsOf .tickH) = false ∧
    fire s.params r (inputsOf .tickH) = false ∧
    ∃ q, exec .tickH (s.withRegs r) = .next (s.withRegs q) ∧ q.elapsed = 0 ∧ q.powered = true

/-- R83, R110, R155: a device silent since an edge that left `elapsed = 0` in NORMAL is left alone for fewer than
`N[cfg_sel]` ticks, each of which is counted, and the `N[cfg_sel]`-th tick fires. -/
def Obligations.SilentDeviceTimesOutAtTheThreshold : Prop :=
  ∀ (s : State) (r : Registers) (ops : List Instr) (j : Instr), s.params.wellFormed = true →
    fsm r = .normal → r.elapsed = 0 →
    noReset (ops ++ [j]) = true → silent r.lastLevel (ops ++ [j]) = true →
    tickCount ops < threshold s.params r.cfgSel →
    ∃ q, runOps ops (s.withRegs r) = .next (s.withRegs q) ∧ fsm q = .normal ∧ q.elapsed = tickCount ops ∧
      (isTick j = true → tickCount ops + 1 = threshold s.params r.cfgSel →
        ∃ u, exec j (s.withRegs q) = .next (s.withRegs u) ∧ fsm u = .failed ∧ u.resetElapsed = 0 ∧
          u.elapsed = threshold s.params r.cfgSel)

/-- R120: while the heartbeats come in time no failure occurs: from a powered state whose count is that of the ticks
since the last edge, the device stays powered and no cycle fires, in every operation of the run. -/
def Obligations.NoFailureWhileHeartbeatsComeInTime : Prop :=
  ∀ (s : State) (r : Registers) (ops : List Instr) (j : Instr),
    r.powered = true → r.elapsed < threshold s.params r.cfgSel →
    inTime (threshold s.params r.cfgSel) r.lastLevel r.elapsed (ops ++ [j]) = true →
    ∃ q, runOps ops (s.withRegs r) = .next (s.withRegs q) ∧ q.powered = true ∧
      fire s.params q (inputsOf j) = false

/-- R155, R156, R157, R159, for the tables R9 derives from a tick period that divides 100 ms: the timeout falls after
the nominal duration and at most one tick later, the release `P` ticks after it, the boot release in its interval, and
the error is at most 2 % for ticks of at most 10 ms. Times in whole microseconds are the model's choice (log entry 10). -/
def Obligations.RealTimeBounds : Prop :=
  ∀ (p : Params) (sel : Sel) (t0 phi : Nat), p.timeoutTicks = derivedTicks p.tickPeriodUs p.selMap →
    p.wellFormed = true → 0 < p.tickPeriodUs → p.tickPeriodUs ∣ 100000 → 0 < phi → phi ≤ p.tickPeriodUs →
    let T := p.tickPeriodUs
    let D := nominalUs p.selMap sel
    t0 + D < fireTime p sel t0 phi ∧ fireTime p sel t0 phi ≤ t0 + D + T ∧
    releaseTime p sel t0 phi = fireTime p sel t0 phi + pulseTicks p * T ∧
    t0 + (pulseTicks p - 1) * T < bootReleaseTime p t0 phi ∧ bootReleaseTime p t0 phi ≤ t0 + pulseTicks p * T ∧
    (T ≤ 10000 → (fireTime p sel t0 phi - (t0 + D)) * 100 ≤ 2 * D)

/-! ### reset_sequencer -/

/-- R93, R95: which ticks the sequencer counts, and what `reset_elapsed` becomes in every operation. -/
def Obligations.ResetElapsedUpdate : Prop :=
  ∀ (s : State) (r : Registers) (i : Instr),
    (seqTick r (inputsOf i) = true ↔ isReset i = false ∧ isTick i = true ∧ r.resetAsserted = true) ∧
    ¬ (fire s.params r (inputsOf i) = true ∧ seqTick r (inputsOf i) = true) ∧
    ∃ q, exec i (s.withRegs r) = .next (s.withRegs q) ∧
      q.resetElapsed = if isReset i then 0 else if fire s.params r (inputsOf i) then 0
        else if seqTick r (inputsOf i) then satinc s.params.wR r.resetElapsed else r.resetElapsed

/-- R94: the release is on the counted tick whose incremented pulse count reaches `P`; it raises the reset line, and
changes power only as an edge in the same cycle does. -/
def Obligations.ReleaseEndsThePulse : Prop :=
  ∀ (s : State) (r : Registers) (i : Instr),
    (release s.params r (inputsOf i) = true ↔
      seqTick r (inputsOf i) = true ∧ satinc s.params.wR r.resetElapsed ≥ pulseTicks s.params) ∧
    (release s.params r (inputsOf i) = true →
      ∃ q, exec i (s.withRegs r) = .next (s.withRegs q) ∧ q.resetAsserted = false ∧
        q.powered = (edge r (inputsOf i) || r.powered))

/-- R96: with the reset line released, an operation asserts it exactly if it is a RESET or fires, and the pulse then
starts from 0; a RESET starts the pulse from every state. -/
def Obligations.PulseStartsOnlyByFireOrReset : Prop :=
  ∀ (s : State) (r : Registers) (i : Instr),
    ∃ q, exec i (s.withRegs r) = .next (s.withRegs q) ∧
      (r.resetAsserted = false → (q.resetAsserted = true ↔ isReset i = true ∨ fire s.params r (inputsOf i) = true)) ∧
      (isReset i = true ∨ fire s.params r (inputsOf i) = true → q.resetAsserted = true ∧ q.resetElapsed = 0)

/-- R97: during the pulse, what becomes of the reset line and of the pulse count depends on the tick, the pulse count
and the record alone: not on power, heartbeat, elapsed time or selector. -/
def Obligations.SequencerIndependentOfPower : Prop :=
  ∀ (s s' : State) (r r' : Registers) (i i' : Instr), s.params = s'.params →
    r.resetAsserted = true → r'.resetAsserted = true → r.resetElapsed = r'.resetElapsed →
    isReset i = false → isReset i' = false → isTick i = isTick i' →
    ∃ q q', exec i (s.withRegs r) = .next (s.withRegs q) ∧ exec i' (s'.withRegs r') = .next (s'.withRegs q') ∧
      q.resetAsserted = q'.resetAsserted ∧ q.resetElapsed = q'.resetElapsed

/-- R98: from the start of a pulse, whatever the heartbeat and the power do, the reset line stays asserted for the first
`P - 1` ticks, each of which is counted, and the `P`-th tick releases it. -/
def Obligations.PulseLastsExactlyItsWidth : Prop :=
  ∀ (s : State) (r : Registers) (ops : List Instr) (j : Instr), s.params.wellFormed = true →
    r.resetAsserted = true → r.resetElapsed = 0 → noReset (ops ++ [j]) = true →
    tickCount ops < pulseTicks s.params →
    ∃ q, runOps ops (s.withRegs r) = .next (s.withRegs q) ∧
      q.resetAsserted = true ∧ q.resetElapsed = tickCount ops ∧
      (isTick j = true → tickCount ops + 1 = pulseTicks s.params →
        ∃ u, exec j (s.withRegs q) = .next (s.withRegs u) ∧ u.resetAsserted = false ∧ u.resetElapsed = pulseTicks s.params)

/-! ### The supervisor -/

/-- R28, R38: the outputs and the state code are functions of `powered` and `reset_asserted` alone. -/
def Obligations.OutputsAndStateCode : Prop :=
  ∀ (s : State) (r : Registers),
    portOutputs false (s.withRegs r) = some { resetN := !r.resetAsserted, pwrEn := r.powered } ∧
    fsmCode (fsm r) = BitVec.ofBool r.powered ++ BitVec.ofBool r.resetAsserted ∧
    (fsm r = .normal ↔ r.powered = true ∧ r.resetAsserted = false) ∧
    (fsm r = .failed ↔ r.powered = false ∧ r.resetAsserted = true) ∧
    (fsm r = .recovering ↔ r.powered = false ∧ r.resetAsserted = false) ∧
    (fsm r = .restoredInReset ↔ r.powered = true ∧ r.resetAsserted = true)

/-- R101: the transition table, and the events that cannot occur in each state. -/
def Obligations.TransitionTable : Prop :=
  ∀ (s : State) (r : Registers) (i : Instr),
    let v := events s.params r (inputsOf i)
    (fsm r = .normal → v.release = false) ∧
    (fsm r = .failed → v.fire = false) ∧
    (fsm r = .restoredInReset → v.fire = false) ∧
    (fsm r = .recovering → v.fire = false ∧ v.release = false) ∧
    ∃ q, exec i (s.withRegs r) = .next (s.withRegs q) ∧
      (isReset i = true → fsm q = .failed) ∧
      (isReset i = false →
        (fsm r = .normal → v.fire = true → fsm q = .failed) ∧
        (fsm r = .normal → v.fire = false → fsm q = .normal) ∧
        (fsm r = .failed → v.release = true → v.edge = false → fsm q = .recovering) ∧
        (fsm r = .failed → v.edge = true → v.release = false → fsm q = .restoredInReset) ∧
        (fsm r = .failed → v.edge = true → v.release = true → fsm q = .normal) ∧
        (fsm r = .failed → v.edge = false → v.release = false → fsm q = .failed) ∧
        (fsm r = .restoredInReset → v.release = true → fsm q = .normal) ∧
        (fsm r = .restoredInReset → v.release = false → fsm q = .restoredInReset) ∧
        (fsm r = .recovering → v.edge = true → fsm q = .normal) ∧
        (fsm r = .recovering → v.edge = false → fsm q = .recovering))

/-- R104: the writes of one cycle never conflict. -/
def Obligations.WritesNeverConflict : Prop :=
  ∀ (p : Params) (r : Registers) (i : Inputs),
    ¬ (edge r i = true ∧ fire p r i = true) ∧
    ¬ (fire p r i = true ∧ release p r i = true) ∧
    ¬ (fire p r i = true ∧ seqTick r i = true)

/-- R110, R131: a fire in NORMAL sets the three registers at one clock edge, so that both outputs, high before it, are
low after it. -/
def Obligations.FireEntersFailed : Prop :=
  ∀ (s : State) (r : Registers) (i : Instr), fsm r = .normal → fire s.params r (inputsOf i) = true →
    outputs r = { resetN := true, pwrEn := true } ∧
    ∃ q, exec i (s.withRegs r) = .next (s.withRegs q) ∧
      q = { r with lastLevel := levelIn i, elapsed := satinc s.params.wE r.elapsed,
                   powered := false, resetAsserted := true, resetElapsed := 0 } ∧
      fsm q = .failed ∧ outputs q = { resetN := false, pwrEn := false }

/-- R111 to R115: how a failure episode ends. -/
def Obligations.EpisodeTransitions : Prop :=
  ∀ (s : State) (r : Registers) (i : Instr), isReset i = false →
    let v := events s.params r (inputsOf i)
    ∃ q, exec i (s.withRegs r) = .next (s.withRegs q) ∧
      (fsm r = .failed → v.release = true → v.edge = false →
        q.resetAsserted = false ∧ q.powered = false ∧ fsm q = .recovering) ∧
      (fsm r = .failed → v.edge = true → v.release = false →
        q.powered = true ∧ q.elapsed = 0 ∧ q.resetAsserted = true ∧ fsm q = .restoredInReset) ∧
      (s.params.wellFormed = true → fsm r = .failed → i = .tickH → r.lastLevel = false →
        r.resetElapsed + 1 = pulseTicks s.params → q.powered = true ∧ q.resetAsserted = false ∧ fsm q = .normal) ∧
      (fsm r = .restoredInReset → v.release = true →
        q.resetAsserted = false ∧ q.powered = true ∧ fsm q = .normal ∧ (v.edge = true → q.elapsed = 0)) ∧
      (fsm r = .recovering → v.edge = true →
        q.powered = true ∧ q.elapsed = 0 ∧ q.resetAsserted = false ∧ fsm q = .normal)

/-- R116: every other cycle leaves the state, the transitions that do not exist, and the only ways into FAILED. -/
def Obligations.ImpossibleTransitions : Prop :=
  ∀ (s : State) (r : Registers) (i : Instr),
    ∃ q, exec i (s.withRegs r) = .next (s.withRegs q) ∧
      (isReset i = false →
        (fsm r = .normal → fsm q = .normal ∨ fsm q = .failed) ∧
        (fsm r = .recovering → fsm q = .recovering ∨ fsm q = .normal) ∧
        (fsm r = .restoredInReset → fsm q = .restoredInReset ∨ fsm q = .normal) ∧
        (fsm r = .normal → fire s.params r (inputsOf i) = false → fsm q = fsm r) ∧
        (fsm r = .failed → edge r (inputsOf i) = false → release s.params r (inputsOf i) = false → fsm q = fsm r) ∧
        (fsm r = .restoredInReset → release s.params r (inputsOf i) = false → fsm q = fsm r) ∧
        (fsm r = .recovering → edge r (inputsOf i) = false → fsm q = fsm r)) ∧
      (fsm q = .failed → isReset i = true ∨ fsm r = .normal ∨ fsm r = .failed)

/-- R30, R133: power comes back only by an edge, and goes only by a fire or a RESET. -/
def Obligations.PowerChangesOnlyByEdgeFireOrReset : Prop :=
  ∀ (s : State) (r : Registers) (i : Instr),
    ∃ q, exec i (s.withRegs r) = .next (s.withRegs q) ∧
      (r.powered = false → (q.powered = true ↔ edge r (inputsOf i) = true)) ∧
      (r.powered = true → (q.powered = false ↔ isReset i = true ∨ fire s.params r (inputsOf i) = true))

/-- R34: the selector is the strap value of the last RESET, and is constant while reset is deasserted. -/
def Obligations.SelectorIsConstantPerBoot : Prop :=
  ∀ (s : State) (before after : List Instr) (h : Bool) (sel : Sel), noReset after = true →
    ∀ r : Registers, ∃ q,
      runOps (before ++ .reset h sel :: after) (s.withRegs r) = .next (s.withRegs q) ∧ q.cfgSel = sel

/-- R119: under a separated record, no timeout condition is met in a cycle that starts with the reset line asserted, in
any state reached from a RESET; so the fire is the timeout condition. -/
def Obligations.SeparationLemma : Prop :=
  ∀ (s : State) (h : Bool) (sel : Sel) (ops : List Instr), s.params.wellFormed = true → s.params.separated = true →
    ∃ r, runOps (.reset h sel :: ops) s = .next (s.withRegs r) ∧
      ∀ j : Instr,
        (r.resetAsserted = true → timeoutCond s.params r (inputsOf j) = false) ∧
        fire s.params r (inputsOf j) = timeoutCond s.params r (inputsOf j)

/-! ### Priority, hazards and invariants -/

/-- R130: the outcome of every meeting of events in one cycle; where it names the next tick, any cycles without tick, edge
and RESET may come before that tick. -/
def Obligations.PriorityOfSimultaneousEvents : Prop :=
  ∀ (s : State) (r : Registers) (i : Instr),
    let v := events s.params r (inputsOf i)
    ∃ q, exec i (s.withRegs r) = .next (s.withRegs q) ∧
      (isReset i = true → v = ⟨false, false, false, false, false, false⟩ ∧
        q = { cfgSel := (inputsOf i).S, lastLevel := levelIn i, elapsed := 0, resetElapsed := 0,
              powered := false, resetAsserted := true }) ∧
      (v.edge = true → isTick i = true → r.powered = true →
        q.elapsed = 0 ∧ v.accTick = false ∧ v.fire = false) ∧
      (v.edge = true → isTick i = true → r.resetAsserted = true →
        q.elapsed = 0 ∧ q.powered = true ∧ q.resetElapsed = satinc s.params.wR r.resetElapsed ∧
        q.resetAsserted = !v.release) ∧
      (v.release = true → v.timeoutCond = true →
        v.fire = false ∧ q.resetAsserted = false ∧ q.powered = true ∧
        ∀ ops, uneventful (levelIn i) ops = true → ∃ u, runOps ops (s.withRegs q) = .next (s.withRegs u) ∧
          u.powered = true ∧ ∀ j, accTick u (inputsOf j) = true → fire s.params u (inputsOf j) = true) ∧
      (v.timeoutCond = true → r.resetAsserted = true → v.release = false →
        v.fire = false ∧ fsm q = .restoredInReset ∧
        ∀ ops, uneventful (levelIn i) ops = true → ∃ u, runOps ops (s.withRegs q) = .next (s.withRegs u) ∧
          u.powered = true ∧ ∀ j, accTick u (inputsOf j) = true → timeoutCond s.params u (inputsOf j) = true) ∧
      ¬ (v.fire = true ∧ v.release = true) ∧ ¬ (v.fire = true ∧ v.edge = true)

/-- R128, R129: in RECOVERING nothing consumes a tick: an operation without an edge changes `last_level` alone, as it
would without the tick. -/
def Obligations.RecoveringIgnoresTicks : Prop :=
  ∀ (s : State) (r : Registers) (i : Instr), fsm r = .recovering → isReset i = false → edge r (inputsOf i) = false →
    exec i (s.withRegs r) = .next (s.withRegs { r with lastLevel := levelIn i })

/-- R160: without ticks no pulse ends and no timeout fires: the reset line and its count stay, and power is never
cut. -/
def Obligations.NothingExpiresWithoutTicks : Prop :=
  ∀ (s : State) (r : Registers) (ops : List Instr), noReset ops = true → tickCount ops = 0 →
    ∃ q, runOps ops (s.withRegs r) = .next (s.withRegs q) ∧
      q.resetAsserted = r.resetAsserted ∧ q.resetElapsed = r.resetElapsed ∧ (r.powered = true → q.powered = true)

/-- R44: what holds in every state reached from a RESET by any operations with reset deasserted: the selector is that
RESET's, the pulse count is below `P` while the reset line is asserted, `elapsed` has not changed since the device lost
power, and under a separated record a powered device's `elapsed` is below the threshold. -/
def Obligations.ReachableStateInvariants : Prop :=
  ∀ (s : State) (h : Bool) (sel : Sel) (ops : List Instr), s.params.wellFormed = true → noReset ops = true →
    ∃ r, runOps (.reset h sel :: ops) s = .next (s.withRegs r) ∧
      r.cfgSel = sel ∧
      (r.resetAsserted = true → r.resetElapsed ≤ pulseTicks s.params - 1) ∧
      (∀ (done since : List Instr), ops = done ++ since →
        (∀ part rest, since = part ++ rest →
          ∃ u, runOps (.reset h sel :: (done ++ part)) s = .next (s.withRegs u) ∧ u.powered = false) →
        ∃ u, runOps (.reset h sel :: done) s = .next (s.withRegs u) ∧ r.elapsed = u.elapsed) ∧
      (s.params.separated = true → r.powered = true → r.elapsed ≤ threshold s.params r.cfgSel - 1)

/-- R44, R89: every step, of any operation, keeps the invariant of the machine, which also holds the counters, naturals
by the model's choice (log entry 8), within their widths. -/
def Obligations.StepKeepsInvariant : Prop :=
  ∀ s t : State, s.Inv → step s = .next t → t.Inv

/-- R42, R44: the state after reset (strap 0, the heartbeat low and the default record: the model's choice, log entries 1
and 2) meets the invariant, and so does the machine of a well-formed record before its first RESET. -/
def Obligations.ResetMeetsInvariant : Prop :=
  State.reset.Inv ∧ ∀ p s, elaborate p = .ok s → s.Inv
end

