-- ==== Sys2Proof/Laws/State.lean ====
section
/-! SUPPORT. The small lemmas of the state's updates: one per field per update, so that no proof unfolds a record. -/

namespace Sys2Proof.Machine

@[simp] theorem State.withRegs_params (s : State) (r : Registers) : (s.withRegs r).params = s.params := rfl
@[simp] theorem State.withRegs_regs (s : State) (r : Registers) : (s.withRegs r).regs = some r := rfl
@[simp] theorem State.withRegs_inputs (s : State) (r : Registers) : (s.withRegs r).inputs = s.inputs := rfl
@[simp] theorem State.withRegs_draws (s : State) (r : Registers) : (s.withRegs r).draws = s.draws := rfl

/-- The second write of the registers wins. -/
@[simp] theorem State.withRegs_withRegs (s : State) (r q : Registers) : (s.withRegs r).withRegs q = s.withRegs q := rfl

/-- Writing the registers a state already holds changes nothing. -/
theorem State.withRegs_self (s : State) (r : Registers) (h : s.regs = some r) : s.withRegs r = s := by
  cases s; cases h; rfl

@[simp] theorem State.withRegs_inj (s : State) (r q : Registers) : s.withRegs r = s.withRegs q ↔ r = q := by
  constructor
  · intro h
    have : (s.withRegs r).regs = (s.withRegs q).regs := by rw [h]
    simpa using this
  · rintro rfl; rfl

@[simp] theorem placeWord_params (w : OpWord) (s : State) : (placeWord w s).params = s.params := rfl
@[simp] theorem placeWord_regs (w : OpWord) (s : State) : (placeWord w s).regs = s.regs := rfl
@[simp] theorem placeWord_inputs (w : OpWord) (s : State) :
    (placeWord w s).inputs = wordSample w :: s.inputs.drop 1 := rfl
@[simp] theorem placeWord_draws (w : OpWord) (s : State) : (placeWord w s).draws = s.draws := rfl

@[simp] theorem unclockedResetPulse_params (s : State) : (unclockedResetPulse s).params = s.params := rfl
@[simp] theorem unclockedResetPulse_regs (s : State) : (unclockedResetPulse s).regs = none := rfl
@[simp] theorem unclockedResetPulse_inputs (s : State) : (unclockedResetPulse s).inputs = s.inputs := rfl
@[simp] theorem unclockedResetPulse_draws (s : State) : (unclockedResetPulse s).draws = s.draws := rfl

@[simp] theorem asyncAssert_cfgSel (r : Registers) : (asyncAssert r).cfgSel = r.cfgSel := rfl
@[simp] theorem asyncAssert_lastLevel (r : Registers) : (asyncAssert r).lastLevel = r.lastLevel := rfl
@[simp] theorem asyncAssert_elapsed (r : Registers) : (asyncAssert r).elapsed = 0 := rfl
@[simp] theorem asyncAssert_resetElapsed (r : Registers) : (asyncAssert r).resetElapsed = 0 := rfl
@[simp] theorem asyncAssert_powered (r : Registers) : (asyncAssert r).powered = false := rfl
@[simp] theorem asyncAssert_resetAsserted (r : Registers) : (asyncAssert r).resetAsserted = true := rfl

@[simp] theorem resetRegisters_cfgSel (h : Bool) (sel : Sel) : (resetRegisters h sel).cfgSel = sel := rfl
@[simp] theorem resetRegisters_lastLevel (h : Bool) (sel : Sel) : (resetRegisters h sel).lastLevel = h := rfl
@[simp] theorem resetRegisters_elapsed (h : Bool) (sel : Sel) : (resetRegisters h sel).elapsed = 0 := rfl
@[simp] theorem resetRegisters_resetElapsed (h : Bool) (sel : Sel) : (resetRegisters h sel).resetElapsed = 0 := rfl
@[simp] theorem resetRegisters_powered (h : Bool) (sel : Sel) : (resetRegisters h sel).powered = false := rfl
@[simp] theorem resetRegisters_resetAsserted (h : Bool) (sel : Sel) : (resetRegisters h sel).resetAsserted = true := rfl

@[simp] theorem cycle_cfgSel (p : Params) (r : Registers) (i : Inputs) : (cycle p r i).cfgSel = r.cfgSel := rfl
@[simp] theorem cycle_lastLevel (p : Params) (r : Registers) (i : Inputs) : (cycle p r i).lastLevel = i.H := rfl
@[simp] theorem cycle_elapsed (p : Params) (r : Registers) (i : Inputs) :
    (cycle p r i).elapsed = nextElapsed p r i := rfl
@[simp] theorem cycle_resetElapsed (p : Params) (r : Registers) (i : Inputs) :
    (cycle p r i).resetElapsed = nextResetElapsed p r i := rfl
@[simp] theorem cycle_powered (p : Params) (r : Registers) (i : Inputs) :
    (cycle p r i).powered = nextPowered p r i := rfl
@[simp] theorem cycle_resetAsserted (p : Params) (r : Registers) (i : Inputs) :
    (cycle p r i).resetAsserted = nextResetAsserted p r i := rfl

end Sys2Proof.Machine
end

