-- ==== Sys2Proof/Laws/Ops.lean ====
section
/-! SUPPORT. One lemma per shared operation that says what it can do, for proofs to cite instead of unfolding it. -/

namespace Sys2Proof.Machine

/-! ### Counters and lookups -/

theorem satinc_of_lt {width v : Nat} (h : v < 2 ^ width - 1) : satinc width v = v + 1 := if_pos h

theorem satinc_of_ge {width v : Nat} (h : 2 ^ width - 1 ≤ v) : satinc width v = v := if_neg (by omega)

theorem satinc_le_succ (width v : Nat) : satinc width v ≤ v + 1 := by
  unfold satinc; split <;> omega

theorem le_satinc (width v : Nat) : v ≤ satinc width v := by
  unfold satinc; split <;> omega

theorem satinc_le_max {width v : Nat} (h : v ≤ 2 ^ width - 1) : satinc width v ≤ 2 ^ width - 1 := by
  unfold satinc; split <;> omega

/-- Every threshold is an entry of the record's table. -/
theorem threshold_mem (p : Params) (sel : Sel) : threshold p sel ∈ p.timeoutTicks.toList := by
  unfold threshold; simp

/-- The thresholds of a well-formed record are at least 1 and fit the counter. -/
theorem wellFormed_threshold {p : Params} (h : p.wellFormed = true) (sel : Sel) :
    1 ≤ threshold p sel ∧ threshold p sel ≤ 2 ^ p.wE - 1 := by
  simp only [Params.wellFormed, Params.thresholdsFit, Bool.and_eq_true, List.all_eq_true, decide_eq_true_eq] at h
  exact h.1 _ (threshold_mem p sel)

/-- The pulse width of a well-formed record is at least 1 and fits the counter. -/
theorem wellFormed_pulse {p : Params} (h : p.wellFormed = true) :
    1 ≤ pulseTicks p ∧ pulseTicks p ≤ 2 ^ p.wR - 1 := by
  simp only [Params.wellFormed, Params.pulseFits, Bool.and_eq_true, decide_eq_true_eq] at h
  exact h.2

/-- The thresholds of a separated record exceed the pulse width. -/
theorem separated_threshold {p : Params} (h : p.separated = true) (sel : Sel) : pulseTicks p < threshold p sel := by
  simp only [Params.separated, List.all_eq_true, decide_eq_true_eq] at h
  exact h _ (threshold_mem p sel)

/-! ### The writes of a cycle, by the events of the cycle -/

section
variable {p : Params} {r : Registers} {i : Inputs}

theorem accTick_powered (h : accTick r i = true) : r.powered = true := by
  simp only [accTick, Bool.and_eq_true] at h; exact h.1.2

theorem fire_timeoutCond (h : fire p r i = true) : timeoutCond p r i = true := by
  simp only [fire, Bool.and_eq_true] at h; exact h.1

theorem timeoutCond_accTick (h : timeoutCond p r i = true) : accTick r i = true := by
  simp only [timeoutCond, Bool.and_eq_true] at h; exact h.1

theorem fire_resetAsserted (h : fire p r i = true) : r.resetAsserted = false := by
  simp only [fire, Bool.and_eq_true, Bool.not_eq_true'] at h; exact h.2

theorem seqTick_resetAsserted (h : seqTick r i = true) : r.resetAsserted = true := by
  simp only [seqTick, Bool.and_eq_true] at h; exact h.2

theorem release_seqTick (h : release p r i = true) : seqTick r i = true := by
  simp only [release, Bool.and_eq_true] at h; exact h.1

end

/-! ### The operations -/

/-- A non-RESET operation performs the cycle step on the registers and leaves the rest of the state. -/
theorem exec_cycle {i : Instr} (hi : isReset i = false) (s : State) (r : Registers) :
    exec i (s.withRegs r) = .next (s.withRegs (cycle s.params r (inputsOf i))) := by
  cases i with
  | reset h sel => cases hi
  | idleL => rfl
  | idleH => rfl
  | tickL => rfl
  | tickH => rfl

/-- What an operation can do: load the reset registers, step the registers it has, or fault for want of them. -/
theorem exec_cases (i : Instr) (s : State) :
    (∃ h sel, i = .reset h sel ∧ exec i s = .next (s.withRegs (resetRegisters h sel))) ∨
    (isReset i = false ∧ ∃ r, s.regs = some r ∧ exec i s = .next (s.withRegs (cycle s.params r (inputsOf i)))) ∨
    (isReset i = false ∧ s.regs = none ∧ exec i s = .fault .notReset) := by
  have other : isReset i = false → (∀ s : State, s.regs = none → exec i s = .fault .notReset) →
      (isReset i = false ∧ ∃ r, s.regs = some r ∧ exec i s = .next (s.withRegs (cycle s.params r (inputsOf i)))) ∨
      (isReset i = false ∧ s.regs = none ∧ exec i s = .fault .notReset) := by
    intro hi hf
    cases hr : s.regs with
    | none => exact .inr ⟨hi, rfl, hf s hr⟩
    | some r => exact .inl ⟨hi, r, rfl, by rw [← exec_cycle hi, s.withRegs_self r hr]⟩
  have none_fault : ∀ k h (s : State), s.regs = none → runCycle k h s = .fault .notReset := by
    intro k h s hs; simp [runCycle, hs]
  cases i with
  | reset h sel => exact .inl ⟨h, sel, rfl, rfl⟩
  | idleL => exact .inr (other rfl (none_fault _ _))
  | idleH => exact .inr (other rfl (none_fault _ _))
  | tickL => exact .inr (other rfl (none_fault _ _))
  | tickH => exact .inr (other rfl (none_fault _ _))

/-- No operation is refused. -/
theorem exec_ne_refused (i : Instr) (s : State) (e : Refusal) : exec i s ≠ .refused e := by
  obtain ⟨h, sel, -, he⟩ | ⟨-, r, -, he⟩ | ⟨-, -, he⟩ := exec_cases i s <;> simp [he]

/-! ### Runs -/

@[simp] theorem runOps_nil (s : State) : runOps [] s = .next s := rfl

theorem runOps_reset (h : Bool) (sel : Sel) (is : List Instr) (s : State) :
    runOps (.reset h sel :: is) s = runOps is (s.withRegs (resetRegisters h sel)) := rfl

theorem runOps_cycle {i : Instr} (hi : isReset i = false) (is : List Instr) (s : State) (r : Registers) :
    runOps (i :: is) (s.withRegs r) = runOps is (s.withRegs (cycle s.params r (inputsOf i))) := by
  simp only [runOps, exec_cycle hi]

/-- A run of two lists in order is the run of the second from where the first ends. -/
theorem runOps_append {is js : List Instr} {s t : State} (h : runOps is s = .next t) :
    runOps (is ++ js) s = runOps js t := by
  induction is generalizing s with
  | nil => cases h; rfl
  | cons i is ih =>
    simp only [List.cons_append, runOps] at h ⊢
    split at h
    · exact ih h
    · cases h
    · cases h

/-! ### Sampling a word -/

theorem levelBit_levelOf (b : Bool) : levelBit (levelOf b) = some b := by cases b <;> rfl

/-- The ports that carry a word show that word. -/
theorem portsWord_wordPorts (w : OpWord) : portsWord (wordPorts w) = some w := by
  simp only [portsWord, wordPorts, levelBit_levelOf, Bool.not_not, Option.some.injEq]
  revert w; decide

/-- What sampling can answer: a refused record, a refused sample, a placed word, or a word of the environment's own. -/
theorem sampleWord_cases (s : State) :
    (s.params.wellFormed = false ∧ sampleWord s = .error .illFormedRecord) ∨
    (s.params.wellFormed = true ∧ s.inputs = [] ∧
      sampleWord s = .ok (Config.envWord s.draws, { s with draws := s.draws + 1 })) ∨
    (s.params.wellFormed = true ∧ ∃ q rest, s.inputs = q :: rest ∧
      ((portsWord q.ports = none ∧ sampleWord s = .error .nonBooleanLevel) ∨
       ∃ w, portsWord q.ports = some w ∧
         sampleWord s = .ok (w, { (if q.rstPulse then unclockedResetPulse s else s) with inputs := rest }))) := by
  cases hw : s.params.wellFormed
  case true =>
    refine .inr ?_
    cases hi : s.inputs with
    | nil => exact .inl ⟨rfl, rfl, by simp [sampleWord, hw, hi]⟩
    | cons q rest =>
      refine .inr ⟨rfl, q, rest, rfl, ?_⟩
      cases hq : portsWord q.ports with
      | none => exact .inl ⟨rfl, by simp [sampleWord, hw, hi, hq]⟩
      | some w => exact .inr ⟨w, rfl, by simp [sampleWord, hw, hi, hq]⟩
  case false => exact .inl ⟨rfl, by simp [sampleWord, hw]⟩

/-- A placed word is the word sampled. -/
theorem sampleWord_placeWord (w : OpWord) (s : State) (hw : s.params.wellFormed = true) :
    sampleWord (placeWord w s) = .ok (w, { s with inputs := s.inputs.drop 1 }) := by
  simp [sampleWord, hw, portsWord_wordPorts, placeWord, wordSample]

end Sys2Proof.Machine
end

