-- ==== Sys2Proof/Laws/PerInstr.lean ====
section
/-! SUPPORT. Statements for all operations, made per constructor of `Instr`. -/

namespace Sys2Proof.Laws

/-- The canonical word of the operation lies in its row of spec/opcode_table.json, the row's mask is part of the bits
the operation cares about, and every ignored bit of the canonical word is 0 (R62, R63, R70). -/
def TableRow.Statement (i : Instr) : Prop :=
  encode i &&& i.rowMask = i.rowMatch ∧ i.rowMask &&& i.careMask = i.rowMask ∧ encode i &&& ~~~ i.careMask = 0

theorem TableRow.reset (h : Bool) (sel : Sel) : TableRow.Statement (.reset h sel) := by
  revert h sel; unfold TableRow.Statement; decide

theorem TableRow.idleL : TableRow.Statement .idleL := by unfold TableRow.Statement; decide

theorem TableRow.idleH : TableRow.Statement .idleH := by unfold TableRow.Statement; decide

theorem TableRow.tickL : TableRow.Statement .tickL := by unfold TableRow.Statement; decide

theorem TableRow.tickH : TableRow.Statement .tickH := by unfold TableRow.Statement; decide

end Sys2Proof.Laws
end

