-- ==== Sys2Proof/Laws/Runs.lean ====
section
/-! SUPPORT. Operations and runs as functions of the registers, so that a claim about a run is one about a fold. -/

namespace Sys2Proof.Machine

/-- The registers an operation leaves. -/
def regsAfter (p : Params) (r : Registers) : Instr → Registers
  | .reset h sel => resetRegisters h sel
  | .idleL => cycle p r (inputsOf .idleL)
  | .idleH => cycle p r (inputsOf .idleH)
  | .tickL => cycle p r (inputsOf .tickL)
  | .tickH => cycle p r (inputsOf .tickH)

/-- Every operation completes from registers that have a value, and changes nothing but them. -/
theorem exec_withRegs (i : Instr) (s : State) (r : Registers) :
    exec i (s.withRegs r) = .next (s.withRegs (regsAfter s.params r i)) := by
  cases i <;> rfl

theorem regsAfter_cycle {i : Instr} (hi : isReset i = false) (p : Params) (r : Registers) :
    regsAfter p r i = cycle p r (inputsOf i) := by
  cases i with
  | reset h sel => cases hi
  | idleL => rfl
  | idleH => rfl
  | tickL => rfl
  | tickH => rfl

/-- Only RESET is a RESET. -/
theorem eq_reset_of_isReset {i : Instr} (hi : isReset i = true) : ∃ h sel, i = .reset h sel := by
  cases i with
  | reset h sel => exact ⟨h, sel, rfl⟩
  | idleL => cases hi
  | idleH => cases hi
  | tickL => cases hi
  | tickH => cases hi

/-- The registers a run leaves. -/
def runRegs (p : Params) : List Instr → Registers → Registers
  | [], r => r
  | i :: is, r => runRegs p is (regsAfter p r i)

theorem runRegs_append (p : Params) (is js : List Instr) (r : Registers) :
    runRegs p (is ++ js) r = runRegs p js (runRegs p is r) := by
  induction is generalizing r with
  | nil => rfl
  | cons i is ih => exact ih _

/-- Every run completes from registers that have a value. -/
theorem runOps_withRegs (is : List Instr) (s : State) (r : Registers) :
    runOps is (s.withRegs r) = .next (s.withRegs (runRegs s.params is r)) := by
  induction is generalizing r with
  | nil => rfl
  | cons i is ih => simp only [runOps, exec_withRegs, ih, runRegs]

/-- Every run that starts with a RESET completes, from every state. -/
theorem runOps_reset_withRegs (h : Bool) (sel : Sel) (is : List Instr) (s : State) :
    runOps (.reset h sel :: is) s = .next (s.withRegs (runRegs s.params is (resetRegisters h sel))) := by
  rw [runOps_reset, runOps_withRegs]

end Sys2Proof.Machine
end

