-- ==== Sys2Proof/Tests/Slice0.lean ====
section
/-! SUPPORT. The model's own tests. Every expected word and state is one the spec writes out (95_test_vectors.md, cited
by vector id). The `witness_` theorems meet the hypotheses of the statement they name. -/

namespace Sys2Proof.Tests

open Sys2Proof.Machine

/-! ### Helpers -/

/-- The record CFG_T (95_test_vectors.md §0). -/
def cfgT : Params :=
  { Params.default with wE := 4, wR := 2, timeoutTicks := #v[3, 4, 5, 6, 7, 8, 9, 10], resetPulseTicks := 2 }

/-- The record CFG_TB, which is not separated. -/
def cfgTB : Params :=
  { Params.default with wE := 4, wR := 2, timeoutTicks := #v[2, 2, 2, 2, 2, 2, 2, 2], resetPulseTicks := 3 }

/-- The record CFG_N1, which is not separated. -/
def cfgN1 : Params :=
  { Params.default with wE := 4, wR := 2, timeoutTicks := #v[1, 1, 1, 1, 1, 1, 1, 1], resetPulseTicks := 1 }

/-- The record CFG_SAT, whose thresholds are the top of the counter. -/
def cfgSat : Params :=
  { Params.default with wE := 4, wR := 2, timeoutTicks := #v[15, 15, 15, 15, 15, 15, 15, 15], resetPulseTicks := 3 }

/-- Registers as the vectors write them: `FSM sel=c last=l E=e re=r`. -/
def mk (f : Fsm) (c : Sel) (l : Bool) (e re : Nat) : Registers :=
  { cfgSel := c, lastLevel := l, elapsed := e, resetElapsed := re
    powered := f == .normal || f == .restoredInReset
    resetAsserted := f == .failed || f == .restoredInReset }

/-- The block with a record and registers, and no input placed. -/
def at_ (p : Params) (r : Registers) : State := { params := p, regs := some r, inputs := [], draws := 0 }

/-- The block before its first RESET. -/
def bare (p : Params) : State := { params := p, regs := none, inputs := [], draws := 0 }

/-- The outcome is the next state `t`. -/
def nextIs (t : State) : Host.Outcome State Fault Refusal → Bool
  | .next s => decide (s = t)
  | _ => false

/-- The outcome is a next state. -/
def isNext : Host.Outcome State Fault Refusal → Bool
  | .next _ => true
  | _ => false

/-- The outcome is the fault `NotReset`. -/
def isNotReset : Host.Outcome State Fault Refusal → Bool
  | .fault .notReset => true
  | _ => false

/-- The outcome is the refusal `e`. -/
def refusedBy (e : Refusal) : Host.Outcome State Fault Refusal → Bool
  | .refused d => decide (d = e)
  | _ => false

/-- One vector: the operation takes the block from `a` to `b` with these events. -/
def vector (p : Params) (i : Instr) (a b : Registers) (v : Events) : Bool :=
  nextIs (at_ p b) (exec i (at_ p a)) && decide (events p a (inputsOf i) = v)

/-! ### Well-formedness: one ill-formed record for each check, refused -/

theorem test_records_wellFormed :
    [cfgT, cfgTB, cfgN1, cfgSat, Params.default, Params.swapped].map Params.wellFormed
      = [true, true, true, true, true, true] := by decide

theorem test_records_separated :
    [cfgT, cfgTB, cfgN1, cfgSat, Params.default].map Params.separated = [true, false, false, true, true] := by decide

theorem test_zeroThreshold_refused :
    elaborate { cfgT with timeoutTicks := #v[3, 4, 5, 6, 7, 8, 0, 10] } = .error .illFormedRecord := by rfl

theorem test_wideThreshold_refused :
    elaborate { cfgT with timeoutTicks := #v[3, 4, 5, 16, 7, 8, 9, 10] } = .error .illFormedRecord := by rfl

theorem test_zeroPulse_refused : elaborate { cfgT with resetPulseTicks := 0 } = .error .illFormedRecord := by rfl

theorem test_widePulse_refused : elaborate { cfgT with resetPulseTicks := 4 } = .error .illFormedRecord := by rfl

/-! ### Decoding: words written bit by bit from R60, R62 and R70 -/

/-- X1, X2. -/
theorem test_decode_idleL : decodeTableWord 8 0b000000 = some .idleL ∧ decodeTableWord 8 0b000111 = some .idleL := by
  decide

/-- X3, X4. -/
theorem test_decode_idleH : decodeTableWord 8 0b001000 = some .idleH ∧ decodeTableWord 8 0b001111 = some .idleH := by
  decide

/-- X5, X6. -/
theorem test_decode_tickL : decodeTableWord 8 0b010000 = some .tickL ∧ decodeTableWord 8 0b010111 = some .tickL := by
  decide

/-- X7 to X9. -/
theorem test_decode_tickH :
    decodeTableWord 8 0b011000 = some .tickH ∧ decodeTableWord 8 0b011010 = some .tickH
      ∧ decodeTableWord 8 0b011111 = some .tickH := by decide

/-- X10 to X15. -/
theorem test_decode_reset :
    decodeTableWord 8 0b100000 = some (.reset false 0) ∧ decodeTableWord 8 0b110000 = some (.reset false 0)
      ∧ decodeTableWord 8 0b100101 = some (.reset false 5) ∧ decodeTableWord 8 0b101101 = some (.reset true 5)
      ∧ decodeTableWord 8 0b101011 = some (.reset true 3) ∧ decodeTableWord 8 0b111111 = some (.reset true 7) := by
  decide

/-- A byte wider than the word, and no byte, are rejected by name (R59). -/
theorem test_decode_rejects :
    decodeBytes [0b01000000#8] = .error .wideWord ∧ decodeBytes [0b10000000#8] = .error .wideWord
      ∧ decodeBytes [] = .error .noWord ∧ decodeTableWord 8 64 = none ∧ decodeTableWord 9 256 = none :=
  ⟨rfl, rfl, rfl, by decide, by decide⟩

/-- The canonical words of R70. -/
theorem test_encode :
    encode (.reset false 0) = 0x20#6 ∧ encode (.reset true 5) = 0x2D#6 ∧ encode .idleL = 0x00#6
      ∧ encode .idleH = 0x08#6 ∧ encode .tickL = 0x10#6 ∧ encode .tickH = 0x18#6 := by decide

/-- The texts of R70. -/
theorem test_text :
    opText (.reset true 5) = "RESET sel=5 hb=1" ∧ parseOp "RESET sel=0 hb=0" = some (.reset false 0)
      ∧ parseOp "TICK_H" = some .tickH ∧ parseOp "RESET sel=8 hb=0" = none := by decide

/-- The expansions of R71, by the words PRG1, PRG3 and PRG5 list. -/
theorem test_pseudo :
    (bootOps 0 ++ waitL 2 ++ beatOps ++ waitH 3 ++ holdL 1 ++ holdH 2 ++ repeatBody 2 (timesOp 1 .tickL)).map encode
      = [0x20#6, 0x10#6, 0x10#6, 0x00#6, 0x08#6, 0x18#6, 0x18#6, 0x18#6, 0x00#6, 0x08#6, 0x08#6, 0x10#6, 0x10#6] := by
  decide

/-! ### The vectors of 95_test_vectors.md, by operation -/

/-- S8, F6, F7, F10. -/
theorem test_reset_vectors :
    vector cfgT (.reset true 0) (mk .failed 0 true 3 1) (mk .failed 0 true 0 0) ⟨false, false, false, false, false, false⟩
      ∧ vector cfgT (.reset true 5) (mk .normal 0 true 2 2) (mk .failed 5 true 0 0) ⟨false, false, false, false, false, false⟩
      ∧ vector cfgT (.reset false 0) (mk .failed 3 false 3 1) (mk .failed 0 false 0 0) ⟨false, false, false, false, false, false⟩
      ∧ nextIs (at_ cfgT (mk .failed 3 true 0 0)) (exec (.reset true 3) (bare cfgT)) := by decide

/-- V3, V4, S3, F8. -/
theorem test_idleL_vectors :
    vector cfgT .idleL (mk .normal 0 true 2 2) (mk .normal 0 false 2 2) ⟨false, false, false, false, false, false⟩
      ∧ vector cfgT .idleL (mk .normal 0 false 2 2) (mk .normal 0 false 2 2) ⟨false, false, false, false, false, false⟩
      ∧ vector cfgT .idleL (mk .failed 0 true 3 1) (mk .failed 0 false 3 1) ⟨false, false, false, false, false, false⟩
      ∧ isNotReset (exec .idleL (bare cfgT)) := by decide

/-- V1, V2 (and A6), V5, V7, V8. -/
theorem test_idleH_vectors :
    vector cfgT .idleH (mk .normal 0 false 2 2) (mk .normal 0 true 0 2) ⟨true, false, false, false, false, false⟩
      ∧ vector cfgT .idleH (mk .normal 0 true 2 2) (mk .normal 0 true 2 2) ⟨false, false, false, false, false, false⟩
      ∧ vector cfgT .idleH (mk .failed 0 false 3 1) (mk .restoredInReset 0 true 0 1) ⟨true, false, false, false, false, false⟩
      ∧ vector cfgT .idleH (mk .recovering 0 true 3 2) (mk .recovering 0 true 3 2) ⟨false, false, false, false, false, false⟩
      ∧ vector cfgT .idleH (mk .failed 0 true 3 1) (mk .failed 0 true 3 1) ⟨false, false, false, false, false, false⟩ := by
  decide

/-- A5, A8, S1, S2, S4, S6, S7. -/
theorem test_tickL_vectors :
    vector cfgT .tickL (mk .normal 0 true 2 2) (mk .failed 0 false 3 0) ⟨false, true, true, true, false, false⟩
      ∧ vector cfgT .tickL (mk .recovering 0 false 3 2) (mk .recovering 0 false 3 2) ⟨false, false, false, false, false, false⟩
      ∧ vector cfgT .tickL (mk .failed 0 true 3 0) (mk .failed 0 false 3 1) ⟨false, false, false, false, true, false⟩
      ∧ vector cfgT .tickL (mk .failed 0 true 3 1) (mk .recovering 0 false 3 2) ⟨false, false, false, false, true, true⟩
      ∧ vector cfgT .tickL (mk .recovering 0 true 3 2) (mk .recovering 0 false 3 2) ⟨false, false, false, false, false, false⟩
      ∧ vector cfgN1 .tickL (mk .failed 0 false 0 0) (mk .recovering 0 false 0 1) ⟨false, false, false, false, true, true⟩
      ∧ vector cfgSat .tickL (mk .failed 0 true 5 3) (mk .recovering 0 false 5 3) ⟨false, false, false, false, true, true⟩ := by
  decide

/-- A1, A2, A3, A4, A7, A9, A10, A11, A12, V6. -/
theorem test_tickH_counting_vectors :
    vector cfgT .tickH (mk .normal 0 true 0 2) (mk .normal 0 true 1 2) ⟨false, true, false, false, false, false⟩
      ∧ vector cfgT .tickH (mk .normal 0 true 1 2) (mk .normal 0 true 2 2) ⟨false, true, false, false, false, false⟩
      ∧ vector cfgT .tickH (mk .normal 0 true 2 2) (mk .failed 0 true 3 0) ⟨false, true, true, true, false, false⟩
      ∧ vector cfgT .tickH (mk .normal 0 false 2 2) (mk .normal 0 true 0 2) ⟨true, false, false, false, false, false⟩
      ∧ vector cfgT .tickH (mk .failed 0 true 3 0) (mk .failed 0 true 3 1) ⟨false, false, false, false, true, false⟩
      ∧ vector cfgT .tickH (mk .normal 7 true 8 2) (mk .normal 7 true 9 2) ⟨false, true, false, false, false, false⟩
      ∧ vector cfgT .tickH (mk .normal 7 true 9 2) (mk .failed 7 true 10 0) ⟨false, true, true, true, false, false⟩
      ∧ vector cfgSat .tickH (mk .normal 0 true 14 3) (mk .failed 0 true 15 0) ⟨false, true, true, true, false, false⟩
      ∧ vector cfgSat .tickH (mk .restoredInReset 0 true 15 1) (mk .restoredInReset 0 true 15 2)
          ⟨false, true, true, false, true, false⟩
      ∧ vector cfgT .tickH (mk .recovering 0 false 3 2) (mk .normal 0 true 0 2) ⟨true, false, false, false, false, false⟩ := by
  decide

/-- S5, F1, F2, F3, F4, F5, F9. -/
theorem test_tickH_pulse_vectors :
    vector cfgT .tickH (mk .restoredInReset 0 true 1 1) (mk .normal 0 true 2 2) ⟨false, true, false, false, true, true⟩
      ∧ vector cfgTB .tickH (mk .restoredInReset 0 true 1 2) (mk .normal 0 true 2 3) ⟨false, true, true, false, true, true⟩
      ∧ vector cfgTB .tickH (mk .normal 0 true 2 3) (mk .failed 0 true 3 0) ⟨false, true, true, true, false, false⟩
      ∧ vector cfgT .tickH (mk .failed 0 false 3 1) (mk .normal 0 true 0 2) ⟨true, false, false, false, true, true⟩
      ∧ vector cfgN1 .tickH (mk .normal 0 true 0 1) (mk .failed 0 true 1 0) ⟨false, true, true, true, false, false⟩
      ∧ vector cfgN1 .tickH (mk .restoredInReset 0 true 0 0) (mk .normal 0 true 1 1) ⟨false, true, true, false, true, true⟩
      ∧ isNotReset (exec .tickH (bare cfgT)) := by decide

/-! ### The step -/

/-- The step performs the placed word: TICK_L counts the boot pulse (PRG1, line 2). -/
theorem test_step_runs_placed_word :
    nextIs (at_ Params.default (mk .failed 0 false 0 1)) (step (State.reset.withFetchWord 8 0x10)) := by decide

/-- A port that shows no Boolean, and an ill-formed record, are refused by name (R13, R149), and an operation after a
reset pulse that covered no clock edge faults (R143). -/
theorem test_step_refuses :
    refusedBy .nonBooleanLevel
        (step { State.reset with inputs := [{ ports := { wordPorts 0x00#6 with hbIn := .notBoolean }, rstPulse := false }] })
      ∧ refusedBy .illFormedRecord (step (at_ { cfgT with resetPulseTicks := 0 } (mk .failed 0 false 0 0)))
      ∧ isNotReset (step { State.reset with inputs := [{ ports := wordPorts 0x10#6, rstPulse := true }] }) := by decide

/-! ### Witnesses: the hypotheses of each statement are met, for each of its clauses -/

theorem witness_StepRunsTheDecodedOperation :
    State.reset.params.wellFormed = true ∧ State.reset.inputs = []
      ∧ (State.reset.withFetchWord 8 0x18).inputs = [wordSample 0x18#6]
      ∧ portsWord (wordSample 0x18#6).ports = some 0x18#6 ∧ (wordSample 0x18#6).rstPulse = false
      ∧ (Sample.mk (wordPorts 0x18#6) true).rstPulse = true := by decide

/-- RESET words 0x20 and 0x30 differ in the ignored `K`, IDLE_L words 0x00 and 0x07 in the ignored `S`. -/
theorem witness_IgnoredBitsChangeNothing :
    ((0x20#6).getLsbD 5 = (0x30#6).getLsbD 5 ∧ (0x20#6).getLsbD 3 = (0x30#6).getLsbD 3
        ∧ ((0x20#6).getLsbD 5 = true ∧ (0x20#6).extractLsb' 0 3 = (0x30#6).extractLsb' 0 3))
      ∧ ((0x00#6).getLsbD 5 = (0x07#6).getLsbD 5 ∧ (0x00#6).getLsbD 3 = (0x07#6).getLsbD 3
        ∧ ((0x00#6).getLsbD 5 = false ∧ (0x00#6).getLsbD 4 = (0x07#6).getLsbD 4)) := by decide

/-- Also of `StepKeepsInvariant`: the state the step starts from meets the invariant. -/
theorem witness_StepFrame : isNext (step (State.reset.withFetchWord 8 0x18)) := by decide

theorem witness_StepKeepsInvariant :
    (State.reset.withFetchWord 8 0x18).params.wellFormed = true
      ∧ Registers.Inv Params.default (mk .failed 0 false 0 0)
      ∧ (State.reset.withFetchWord 8 0x18).regs = some (mk .failed 0 false 0 0) := by decide

theorem witness_RunsComposeOperations :
    State.reset.params.wellFormed = true ∧ isNext (runOps ([0x10#6, 0x08#6].map decodeWord) State.reset) := by decide

theorem witness_ElaborationRefusesIllFormedRecords :
    ((∀ sel : Sel, 1 ≤ threshold cfgT sel ∧ threshold cfgT sel ≤ 2 ^ cfgT.wE - 1)
        ∧ 1 ≤ pulseTicks cfgT ∧ pulseTicks cfgT ≤ 2 ^ cfgT.wR - 1)
      ∧ ¬ 1 ≤ pulseTicks { cfgT with resetPulseTicks := 0 }
      ∧ elaborate cfgT = .ok (bare cfgT) := ⟨by decide, by decide, rfl⟩

theorem witness_SaturatingIncrement : (14 < 2 ^ 4 - 1 ∧ satinc 4 14 = 15) ∧ (2 ^ 4 - 1 ≤ 15 ∧ satinc 4 15 = 15) := by
  decide

theorem witness_ResetResult : isNext (exec (.reset true 3) (bare cfgT)) := by decide

theorem witness_IdleLResult : nextIs ((bare cfgT).withRegs (mk .normal 0 false 2 2))
    (exec .idleL ((bare cfgT).withRegs (mk .normal 0 true 2 2))) ∧ (bare cfgT).regs = none := by decide

theorem witness_IdleHResult : isNext (exec .idleH ((bare cfgT).withRegs (mk .normal 0 true 2 2)))
    ∧ (bare cfgT).regs = none := by decide

theorem witness_TickLResult : isNext (exec .tickL ((bare cfgT).withRegs (mk .normal 0 true 2 2)))
    ∧ (bare cfgT).regs = none := by decide

theorem witness_TickHResult : isNext (exec .tickH ((bare cfgT).withRegs (mk .normal 0 true 2 2)))
    ∧ (bare cfgT).regs = none := by decide

theorem witness_CycleStep : Instr.tickH ∈ [Instr.idleL, .idleH, .tickL, .tickH] := by decide

/-- The clauses, in order: IDLE_L and IDLE_H complete, IDLE_H in its level form; a tick while unpowered, one without a
fire, one with the reset line released, one during the pulse without a release. -/
theorem witness_OperationFrames :
    isNext (exec .idleL (at_ cfgT (mk .normal 0 true 2 2))) ∧ isNext (exec .idleH (at_ cfgT (mk .normal 0 true 2 2)))
      ∧ (isNext (exec .tickH (at_ cfgT (mk .recovering 0 true 3 2)))
        ∧ edge (mk .recovering 0 true 3 2) (inputsOf .tickH) = false)
      ∧ (edge (mk .normal 0 true 1 2) (inputsOf .tickL) = false
        ∧ fire cfgT (mk .normal 0 true 1 2) (inputsOf .tickL) = false)
      ∧ release cfgT (mk .failed 0 true 3 0) (inputsOf .tickL) = false := by decide

theorem witness_NotResetFault :
    (bare cfgT).regs = none ∧ isReset .tickH = false ∧ isReset (.reset true 3) = true
      ∧ elaborate cfgT = .ok (bare cfgT) := ⟨rfl, rfl, rfl, rfl⟩

theorem witness_AsynchronousReset :
    isReset .idleL = false ∧ isNotReset (exec .idleL (unclockedResetPulse (at_ cfgT (mk .normal 0 true 2 2)))) := by
  decide

theorem witness_StateAfterReset : State.reset.regs = some (mk .failed 0 false 0 0) := by decide

theorem witness_RunsAreDeterminedAfterReset : (bare cfgT).params = cfgT
    ∧ isNext (runOps [.reset false 0, .tickL] (bare cfgT)) := by decide

/-- PRG1, lines 2 to 4: two ticks release the boot pulse (`P = 2`), one does not, and then an edge comes. -/
theorem witness_BootSequence :
    cfgT.wellFormed = true ∧ noReset [Instr.tickL, .tickL] = true ∧ silent false [Instr.tickL, .tickL] = true
      ∧ nextIs (at_ cfgT (mk .recovering 0 false 0 2)) (runOps [.reset false 0, .tickL, .tickL] (bare cfgT))
      ∧ nextIs (at_ cfgT (mk .failed 0 false 0 1)) (runOps [.reset false 0, .tickL] (bare cfgT))
      ∧ edge (mk .recovering 0 false 0 2) (inputsOf .idleH) = true := by decide

theorem witness_EdgeOncePerTransition :
    nextIs (at_ cfgT (mk .failed 0 false 0 0)) (exec (.reset false 0) (bare cfgT)) ∧ isReset .idleH = false
      ∧ edge (mk .failed 0 false 0 0) (inputsOf .idleH) = true := by decide

theorem witness_HeldLevelIsNotAnEdge :
    ∀ k ∈ Instr.idleH :: .tickH :: [Instr.idleH, .tickH], isReset k = false ∧ levelIn k = true := by decide

/-- Both levels at reset: held high, and held low. -/
theorem witness_FirstEdgeAfterReset :
    (∀ k ∈ [Instr.idleH, .tickH], isReset k = false ∧ levelIn k = true)
      ∧ (∀ k ∈ [Instr.idleL, .tickL], isReset k = false ∧ levelIn k = false)
      ∧ isReset .idleH = false ∧ levelIn .idleH = true := by decide

theorem witness_EdgeRestoresPower : edge (mk .failed 0 false 3 1) (inputsOf .tickH) = true := by decide

/-- PRG2, lines 4 to 6: a condition held off during the pulse, then, with an idle cycle put before it, the next counted
tick, and the one after it, which starts with the reset line released. -/
theorem witness_TimeoutAndFire :
    timeoutCond cfgTB (mk .restoredInReset 0 true 1 1) (inputsOf .tickH) = true
      ∧ fire cfgTB (mk .restoredInReset 0 true 1 1) (inputsOf .tickH) = false
      ∧ noReset [Instr.idleH, .tickH] = true ∧ silent (levelIn .tickH) [Instr.idleH, .tickH] = true
      ∧ tickCount [Instr.idleH] = 0 ∧ accTick (mk .restoredInReset 0 true 2 2) (inputsOf .tickH) = true
      ∧ accTick (mk .normal 0 true 3 3) (inputsOf .tickH) = true := by decide

theorem witness_FireOncePerEpisode :
    fire cfgT (mk .normal 0 true 2 2) (inputsOf .tickH) = true
      ∧ silent true [Instr.tickH, .idleL, .reset false 3, .tickL] = true
      ∧ edge (mk .failed 3 false 0 1) (inputsOf .idleH) = true := by decide

theorem witness_SuspendedWhileUnpowered :
    (mk .failed 0 true 3 0).powered = false ∧ noReset [Instr.tickH, .tickL] = true
      ∧ silent true [Instr.tickH, .tickL] = true := by decide

/-- PRG2, line 3: RESTORED_IN_RESET is reached from RESET, and there both counters count. -/
theorem witness_SaturationNeverBinds :
    cfgTB.wellFormed = true ∧ pulseTicks cfgTB + 1 ≤ 2 ^ cfgTB.wE - 1
      ∧ nextIs (at_ cfgTB (mk .restoredInReset 0 true 0 0)) (runOps [.reset false 0, .idleH] (bare cfgTB))
      ∧ seqTick (mk .restoredInReset 0 true 0 0) (inputsOf .tickH) = true
      ∧ accTick (mk .restoredInReset 0 true 0 0) (inputsOf .tickH) = true := by decide

theorem witness_EdgeWinsOverTick : (mk .normal 0 false 2 2).lastLevel = false := by decide

/-- `N[0] = 3`: two ticks are counted, the third fires. -/
theorem witness_SilentDeviceTimesOutAtTheThreshold :
    cfgT.wellFormed = true ∧ fsm (mk .normal 0 true 0 2) = .normal ∧ noReset [Instr.tickH, .tickL, .tickL] = true
      ∧ silent true [Instr.tickH, .tickL, .tickL] = true ∧ tickCount [Instr.tickH, .tickL] + 1 = threshold cfgT 0
      ∧ isTick .tickL = true := by decide

/-- `N[0] = 3`: an edge after every second tick. -/
theorem witness_NoFailureWhileHeartbeatsComeInTime :
    (mk .normal 0 true 0 2).powered = true ∧ (mk .normal 0 true 0 2).elapsed < threshold cfgT 0
      ∧ inTime (threshold cfgT 0) true 0 [.tickH, .tickL, .tickH, .tickH, .tickL, .idleH] = true := by decide

theorem witness_RealTimeBounds :
    Params.default.timeoutTicks = derivedTicks Params.default.tickPeriodUs Params.default.selMap
      ∧ Params.default.wellFormed = true ∧ 0 < Params.default.tickPeriodUs ∧ Params.default.tickPeriodUs ∣ 100000
      ∧ 0 < 1000 ∧ 1000 ≤ Params.default.tickPeriodUs ∧ Params.default.tickPeriodUs ≤ 10000 := by decide

theorem witness_ReleaseEndsThePulse : release cfgT (mk .failed 0 true 3 1) (inputsOf .tickL) = true := by decide

/-- The released reset line, a fire and a RESET. -/
theorem witness_PulseStartsOnlyByFireOrReset :
    (mk .normal 0 true 2 2).resetAsserted = false ∧ fire cfgT (mk .normal 0 true 2 2) (inputsOf .tickH) = true
      ∧ isReset (.reset false 0) = true := by decide

theorem witness_SequencerIndependentOfPower :
    (mk .failed 0 true 3 1).resetAsserted = true ∧ (mk .restoredInReset 5 false 1 1).resetAsserted = true
      ∧ (mk .failed 0 true 3 1).resetElapsed = (mk .restoredInReset 5 false 1 1).resetElapsed
      ∧ isTick .tickH = isTick .tickL ∧ isReset .tickH = false ∧ isReset .tickL = false := by decide

/-- `P = 2`: one tick leaves the line asserted, the second releases it. -/
theorem witness_PulseLastsExactlyItsWidth :
    cfgT.wellFormed = true ∧ (mk .failed 0 true 3 0).resetAsserted = true ∧ (mk .failed 0 true 3 0).resetElapsed = 0
      ∧ noReset [Instr.tickH, .idleL, .tickH] = true ∧ tickCount [Instr.tickH, .idleL] + 1 = pulseTicks cfgT
      ∧ isTick .tickH = true := by decide

/-- One cycle for every row of the table, those that leave the state last. -/
theorem witness_TransitionTable :
    (fsm (mk .normal 0 true 2 2) = .normal ∧ fire cfgT (mk .normal 0 true 2 2) (inputsOf .tickH) = true)
      ∧ (fsm (mk .failed 0 true 3 1) = .failed ∧ release cfgT (mk .failed 0 true 3 1) (inputsOf .tickL) = true
        ∧ edge (mk .failed 0 true 3 1) (inputsOf .tickL) = false)
      ∧ (edge (mk .failed 0 false 3 0) (inputsOf .tickH) = true
        ∧ release cfgT (mk .failed 0 false 3 0) (inputsOf .tickH) = false)
      ∧ (edge (mk .failed 0 false 3 1) (inputsOf .tickH) = true
        ∧ release cfgT (mk .failed 0 false 3 1) (inputsOf .tickH) = true)
      ∧ (fsm (mk .restoredInReset 0 true 1 1) = .restoredInReset
        ∧ release cfgT (mk .restoredInReset 0 true 1 1) (inputsOf .tickH) = true)
      ∧ (fsm (mk .recovering 0 false 3 2) = .recovering ∧ edge (mk .recovering 0 false 3 2) (inputsOf .idleH) = true)
      ∧ isReset (.reset false 0) = true
      ∧ fire cfgT (mk .normal 0 true 1 2) (inputsOf .tickH) = false
      ∧ (edge (mk .failed 0 true 3 0) (inputsOf .tickL) = false
        ∧ release cfgT (mk .failed 0 true 3 0) (inputsOf .tickL) = false)
      ∧ release cfgT (mk .restoredInReset 0 true 0 0) (inputsOf .tickH) = false
      ∧ edge (mk .recovering 0 true 3 2) (inputsOf .tickH) = false := by decide

theorem witness_FireEntersFailed :
    fsm (mk .normal 0 true 2 2) = .normal ∧ fire cfgT (mk .normal 0 true 2 2) (inputsOf .tickH) = true := by decide

/-- R111 to R115, in order, by the vectors S2, V5, F3, S5 (and with an edge), V6. -/
theorem witness_EpisodeTransitions :
    (isReset .tickL = false ∧ fsm (mk .failed 0 true 3 1) = .failed
        ∧ release cfgT (mk .failed 0 true 3 1) (inputsOf .tickL) = true
        ∧ edge (mk .failed 0 true 3 1) (inputsOf .tickL) = false)
      ∧ (isReset .idleH = false ∧ edge (mk .failed 0 false 3 1) (inputsOf .idleH) = true
        ∧ release cfgT (mk .failed 0 false 3 1) (inputsOf .idleH) = false)
      ∧ (isReset .tickH = false ∧ cfgT.wellFormed = true ∧ fsm (mk .failed 0 false 3 1) = .failed
        ∧ (mk .failed 0 false 3 1).lastLevel = false ∧ (mk .failed 0 false 3 1).resetElapsed + 1 = pulseTicks cfgT)
      ∧ (fsm (mk .restoredInReset 0 false 1 1) = .restoredInReset
        ∧ release cfgT (mk .restoredInReset 0 false 1 1) (inputsOf .tickH) = true
        ∧ edge (mk .restoredInReset 0 false 1 1) (inputsOf .tickH) = true)
      ∧ (fsm (mk .recovering 0 false 3 2) = .recovering
        ∧ edge (mk .recovering 0 false 3 2) (inputsOf .tickH) = true) := by decide

/-- A cycle of each state that the statement's clauses leave where it is, and one into FAILED. -/
theorem witness_ImpossibleTransitions :
    isReset .idleH = false ∧ fsm (mk .normal 0 true 1 2) = .normal
      ∧ fire cfgT (mk .normal 0 true 1 2) (inputsOf .idleH) = false
      ∧ (fsm (mk .failed 0 true 3 0) = .failed ∧ edge (mk .failed 0 true 3 0) (inputsOf .idleH) = false
        ∧ release cfgT (mk .failed 0 true 3 0) (inputsOf .idleH) = false)
      ∧ (fsm (mk .restoredInReset 0 true 0 0) = .restoredInReset
        ∧ release cfgT (mk .restoredInReset 0 true 0 0) (inputsOf .idleH) = false)
      ∧ (fsm (mk .recovering 0 true 3 2) = .recovering ∧ edge (mk .recovering 0 true 3 2) (inputsOf .idleH) = false)
      ∧ nextIs (at_ cfgT (mk .failed 0 true 3 0)) (exec .tickH (at_ cfgT (mk .normal 0 true 2 2))) := by decide

theorem witness_PowerChangesOnlyByEdgeFireOrReset :
    (mk .recovering 0 false 3 2).powered = false ∧ edge (mk .recovering 0 false 3 2) (inputsOf .idleH) = true
      ∧ (mk .normal 0 true 2 2).powered = true
      ∧ fire cfgT (mk .normal 0 true 2 2) (inputsOf .tickH) = true ∧ isReset (.reset false 0) = true := by decide

theorem witness_SelectorIsConstantPerBoot : noReset [Instr.tickH, .idleL, .tickH] = true := by decide

/-- RESTORED_IN_RESET is reached under a separated record. -/
theorem witness_SeparationLemma :
    cfgT.wellFormed = true ∧ cfgT.separated = true
      ∧ nextIs (at_ cfgT (mk .restoredInReset 0 true 0 0)) (runOps [.reset false 0, .idleH] (bare cfgT))
      ∧ (mk .restoredInReset 0 true 0 0).resetAsserted = true := by decide

/-- One cycle for each row: edge and tick powered (A4), edge and tick in reset (F3), release and timeout condition (F1),
timeout condition without release (PRG2, line 4). -/
theorem witness_PriorityOfSimultaneousEvents :
    isReset (.reset true 1) = true
      ∧ (edge (mk .normal 0 false 2 2) (inputsOf .tickH) = true ∧ (mk .normal 0 false 2 2).powered = true)
      ∧ (edge (mk .failed 0 false 3 1) (inputsOf .tickH) = true ∧ (mk .failed 0 false 3 1).resetAsserted = true)
      ∧ (release cfgTB (mk .restoredInReset 0 true 1 2) (inputsOf .tickH) = true
        ∧ timeoutCond cfgTB (mk .restoredInReset 0 true 1 2) (inputsOf .tickH) = true)
      ∧ (timeoutCond cfgTB (mk .restoredInReset 0 true 1 1) (inputsOf .tickH) = true
        ∧ release cfgTB (mk .restoredInReset 0 true 1 1) (inputsOf .tickH) = false)
      ∧ isTick .tickH = true ∧ uneventful (levelIn .tickH) [Instr.idleH, .idleH] = true
      ∧ accTick (mk .normal 0 true 2 3) (inputsOf .tickH) = true
      ∧ accTick (mk .restoredInReset 0 true 2 2) (inputsOf .tickH) = true := by decide

theorem witness_RecoveringIgnoresTicks :
    fsm (mk .recovering 0 true 3 2) = .recovering ∧ isReset .tickH = false
      ∧ edge (mk .recovering 0 true 3 2) (inputsOf .tickH) = false := by decide

theorem witness_NothingExpiresWithoutTicks :
    noReset [Instr.idleH, .idleL] = true ∧ tickCount [Instr.idleH, .idleL] = 0
      ∧ (mk .normal 0 true 2 2).powered = true := by decide

/-- PRG1, lines 7 and 8, from a RESET: after a fire the device stays unpowered for a cycle; and a powered state reached
under a separated record. -/
theorem witness_ReachableStateInvariants :
    cfgT.wellFormed = true ∧ cfgT.separated = true
      ∧ noReset [Instr.tickL, .tickL, .idleH, .tickH, .tickH, .tickH, .tickH] = true
      ∧ nextIs (at_ cfgT (mk .failed 0 true 3 1))
          (runOps [.reset false 0, .tickL, .tickL, .idleH, .tickH, .tickH, .tickH, .tickH] (bare cfgT))
      ∧ nextIs (at_ cfgT (mk .normal 0 true 2 2))
          (runOps [.reset false 0, .tickL, .tickL, .idleH, .tickH, .tickH] (bare cfgT)) := by decide

theorem witness_ResetMeetsInvariant : elaborate Params.default = .ok (bare Params.default) := rfl

end Sys2Proof.Tests
end

/-! The statements of 00_scope.md: the parameter record and its tables, the real time of ticks, which steps are refused,
and what a cycle leaves unchanged. -/

namespace Sys2Proof.Machine

/-! ### The parameter record -/

/-- The entries of the table are the thresholds of the eight selector values (R9). -/
theorem mem_timeoutTicks_iff (p : Params) (n : Nat) : n ∈ p.timeoutTicks.toList ↔ ∃ sel, threshold p sel = n := by
  constructor
  · intro h
    obtain ⟨k, hk, rfl⟩ := Vector.mem_iff_getElem.mp (Vector.mem_toList_iff.mp h)
    exact ⟨BitVec.ofNat 3 k, by simp [threshold, Nat.mod_eq_of_lt hk]⟩
  · rintro ⟨sel, rfl⟩
    exact threshold_mem p sel

/-- A record is well formed exactly when every threshold and the pulse width are at least 1 and fit their counters
(R13). -/
theorem wellFormed_iff (p : Params) :
    p.wellFormed = true ↔ (∀ sel : Sel, 1 ≤ threshold p sel ∧ threshold p sel ≤ 2 ^ p.wE - 1) ∧
      1 ≤ pulseTicks p ∧ pulseTicks p ≤ 2 ^ p.wR - 1 := by
  simp only [Params.wellFormed, Params.thresholdsFit, Params.pulseFits, Bool.and_eq_true, List.all_eq_true,
    decide_eq_true_eq, mem_timeoutTicks_iff, forall_exists_index, forall_apply_eq_imp_iff, pulseTicks]

theorem elaborate_of_wellFormed {p : Params} (h : p.wellFormed = true) :
    elaborate p = .ok { params := p, regs := none, inputs := [], draws := 0 } := if_pos h

theorem elaborate_of_not_wellFormed {p : Params} (h : ¬ p.wellFormed = true) :
    elaborate p = .error .illFormedRecord := if_neg h

/-- Settles O11: what elaboration tests is that the record fits its counters. -/
theorem elaborationRefusesIllFormedRecords : Obligations.ElaborationRefusesIllFormedRecords := by
  intro p fits
  have hfits : p.wellFormed = true ↔ fits := wellFormed_iff p
  exact ⟨fun h => ⟨_, elaborate_of_wellFormed (hfits.mpr h), rfl, rfl⟩,
    fun h => elaborate_of_not_wellFormed (mt hfits.mp h)⟩

/-- Settles O12: the two tables are closed terms, evaluated entry by entry. -/
theorem defaultTables : Obligations.DefaultTables := by
  unfold Obligations.DefaultTables
  decide

/-- Settles O13, by the two branches of the increment. -/
theorem saturatingIncrement : Obligations.SaturatingIncrement :=
  fun _ _ => ⟨satinc_of_lt, satinc_of_ge, satinc_le_max⟩

/-! ### Real time -/

/-- Every nominal duration is a whole number of tenths of a second (R11). -/
theorem dvd_nominalUs (m : SelMap) (sel : Sel) : 100000 ∣ nominalUs m sel := by
  cases m <;> revert sel <;> decide

/-- No nominal duration is below half a second (R11). -/
theorem le_nominalUs (m : SelMap) (sel : Sel) : 500000 ≤ nominalUs m sel := by
  cases m <;> revert sel <;> decide

theorem derivedTicks_getElem (T : Nat) (m : SelMap) (sel : Sel) :
    (derivedTicks T m)[sel.toNat] = nominalUs m sel / T + 1 := by
  fin_cases sel <;> rfl

/-- Each threshold of a derived table is the one R9 derives for its selector value. -/
theorem threshold_of_derived {p : Params} (h : p.timeoutTicks = derivedTicks p.tickPeriodUs p.selMap) (sel : Sel) :
    threshold p sel = nominalUs p.selMap sel / p.tickPeriodUs + 1 := by
  simp only [threshold, h, derivedTicks_getElem]

/-- Where the tick period divides the nominal duration, the threshold's tick comes that duration after the first tick
(R155). -/
theorem fireTime_of_derived {p : Params} (h : p.timeoutTicks = derivedTicks p.tickPeriodUs p.selMap) {sel : Sel}
    (hT : p.tickPeriodUs ∣ nominalUs p.selMap sel) (te phi : Nat) :
    fireTime p sel te phi = te + phi + nominalUs p.selMap sel := by
  rw [fireTime, tickTime, threshold_of_derived h, Nat.add_sub_cancel, Nat.div_mul_cancel hT]

/-- Settles O40: the `N`-th tick comes `phi + D` after the edge, with `0 < phi ≤ T`, and the `P`-th tick `phi` into the
last of `P` tick periods. -/
theorem realTimeBounds : Obligations.RealTimeBounds := by
  intro p sel t0 phi htable hwf _ hdvd hphi hphiT T D
  have hfire : fireTime p sel t0 phi = t0 + phi + D :=
    fireTime_of_derived htable (hdvd.trans (dvd_nominalUs _ _)) t0 phi
  have hD : 500000 ≤ D := le_nominalUs _ _
  have hboot : bootReleaseTime p t0 phi = t0 + phi + (pulseTicks p - 1) * T := rfl
  have hpulse : (pulseTicks p - 1) * T + T = pulseTicks p * T := by
    rw [← Nat.succ_mul, Nat.succ_eq_add_one, Nat.sub_add_cancel (wellFormed_pulse hwf).1]
  replace hphiT : phi ≤ T := hphiT
  rw [hfire, hboot]
  refine ⟨by omega, by omega, ?_, by omega, by omega, fun hT => by omega⟩
  rw [releaseTime, hfire]

/-! ### The step's refusals -/

theorem levelBit_eq_none_iff (l : Level) : levelBit l = none ↔ .notBoolean = l := by cases l <;> simp [levelBit]

/-- The ports show no word exactly when one of them shows no Boolean (R69, R149). -/
theorem portsWord_eq_none_iff (q : Ports) :
    portsWord q = none ↔ .notBoolean ∈ [q.rstN, q.tick, q.hbIn, q.strap2, q.strap1, q.strap0] := by
  simp only [List.mem_cons, List.not_mem_nil, or_false, ← levelBit_eq_none_iff]
  unfold portsWord
  split
  · simp [*]
  · next h =>
    refine iff_of_true rfl (by_contra fun hsome => ?_)
    simp only [not_or, ← ne_eq, Option.ne_none_iff_exists'] at hsome
    obtain ⟨⟨n, hn⟩, ⟨k, hk⟩, ⟨b, hb⟩, ⟨s2, h2⟩, ⟨s1, h1⟩, ⟨s0, h0⟩⟩ := hsome
    exact h n k b s2 s1 s0 hn hk hb h2 h1 h0

/-- A sample is refused exactly for an ill-formed record, which comes first, or for ports that show no word. -/
theorem sampleWord_eq_error_iff (s : State) (e : Refusal) :
    sampleWord s = .error e ↔
      (s.params.wellFormed = false ∧ e = .illFormedRecord) ∨
      (s.params.wellFormed = true ∧ e = .nonBooleanLevel ∧
        ∃ q rest, s.inputs = q :: rest ∧ portsWord q.ports = none) := by
  obtain ⟨hw, hs⟩ | ⟨hw, hi, hs⟩ | ⟨hw, q, rest, hi, ⟨hq, hs⟩ | ⟨w, hq, hs⟩⟩ := sampleWord_cases s
  · simp [hw, hs, eq_comm]
  · simp [hw, hi, hs]
  · simp [hw, hi, hq, hs, eq_comm]
  · simp [hw, hi, hq, hs]

/-- No operation is refused, so a step is refused exactly when its sample is. -/
theorem step_eq_refused_iff (s : State) (e : Refusal) : step s = .refused e ↔ sampleWord s = .error e := by
  unfold step
  split
  · next d h => simp [h]
  · next w t h => simp [h, exec_ne_refused]

/-- Settles O7: a step is refused when its sample is, and the sample for an ill-formed record or ports without a word. -/
theorem stepIsRefusedExactly : Obligations.StepIsRefusedExactly := by
  intro s e
  simp only [step_eq_refused_iff, sampleWord_eq_error_iff, portsWord_eq_none_iff]

/-! ### The frame of a cycle -/

/-- What a non-RESET operation leaves: the state but for its registers, and those of the cycle step (R103). -/
theorem frame_of_exec_cycle {i : Instr} (hi : isReset i = false) {s t : State} {r q : Registers}
    (h : exec i (s.withRegs r) = .next t) (hq : t.regs = some q) :
    (t.params = s.params ∧ t.inputs = s.inputs ∧ t.draws = s.draws) ∧ q = cycle s.params r (inputsOf i) := by
  rw [exec_cycle hi] at h
  cases h
  cases hq
  exact ⟨⟨rfl, rfl, rfl⟩, rfl⟩

section
variable {p : Params} {r : Registers} {i : Inputs}

theorem nextElapsed_of_not_counted (he : edge r i = false) (ha : accTick r i = false) :
    nextElapsed p r i = r.elapsed := by
  simp [nextElapsed, he, ha]

theorem nextPowered_of_no_edge_no_fire (he : edge r i = false) (hf : fire p r i = false) :
    nextPowered p r i = r.powered := by
  simp [nextPowered, he, hf]

theorem nextResetElapsed_of_not_counted (hf : fire p r i = false) (ht : seqTick r i = false) :
    nextResetElapsed p r i = r.resetElapsed := by
  simp [nextResetElapsed, hf, ht]

theorem nextResetAsserted_of_no_fire_no_release (hf : fire p r i = false) (hr : release p r i = false) :
    nextResetAsserted p r i = r.resetAsserted := by
  simp [nextResetAsserted, hf, hr]

theorem accTick_of_unpowered (h : r.powered = false) : accTick r i = false := by simp [accTick, h]

theorem accTick_of_no_tick (h : i.K = false) : accTick r i = false := by simp [accTick, h]

theorem seqTick_of_released (h : r.resetAsserted = false) : seqTick r i = false := by simp [seqTick, h]

theorem seqTick_of_no_tick (h : i.K = false) : seqTick r i = false := by simp [seqTick, h]

theorem fire_of_no_accTick (h : accTick r i = false) : fire p r i = false := by simp [fire, timeoutCond, h]

theorem fire_of_asserted (h : r.resetAsserted = true) : fire p r i = false := by simp [fire, h]

theorem release_of_no_seqTick (h : seqTick r i = false) : release p r i = false := by simp [release, h]

theorem edge_of_low (h : i.H = false) : edge r i = false := by simp [edge, h]

theorem edge_of_high_before (h : r.lastLevel = true) : edge r i = false := by simp [edge, h]

/-- Without a fire and without a counted tick the cycle leaves the sequencer's registers (R95, R103). -/
theorem cycle_pulse_of_not_counted (hf : fire p r i = false) (ht : seqTick r i = false) :
    (cycle p r i).resetElapsed = r.resetElapsed ∧ (cycle p r i).resetAsserted = r.resetAsserted :=
  ⟨nextResetElapsed_of_not_counted hf ht, nextResetAsserted_of_no_fire_no_release hf (release_of_no_seqTick ht)⟩

/-- Without a tick the cycle leaves the sequencer's registers (R106, R107). -/
theorem cycle_pulse_of_no_tick (hK : i.K = false) :
    (cycle p r i).resetElapsed = r.resetElapsed ∧ (cycle p r i).resetAsserted = r.resetAsserted :=
  cycle_pulse_of_not_counted (fire_of_no_accTick (accTick_of_no_tick hK)) (seqTick_of_no_tick hK)

/-- Without an edge and without a counted tick the cycle leaves the accumulator and the power (R82, R103). -/
theorem cycle_power_of_not_counted (he : edge r i = false) (ha : accTick r i = false) :
    (cycle p r i).elapsed = r.elapsed ∧ (cycle p r i).powered = r.powered :=
  ⟨nextElapsed_of_not_counted he ha, nextPowered_of_no_edge_no_fire he (fire_of_no_accTick ha)⟩

end

/-- Settles O20: each clause reads off the cycle step the writes whose condition fails. -/
theorem operationFrames : Obligations.OperationFrames := by
  intro s t r q
  refine ⟨fun h hq => ?idleL, fun h hq => ?idleH, fun i hi h hq => ?tick⟩
  case idleL =>
    obtain ⟨⟨hp, hin, hd⟩, rfl⟩ := frame_of_exec_cycle rfl h hq
    obtain ⟨helapsed, hpowered⟩ := cycle_power_of_not_counted (p := s.params) (r := r) (i := inputsOf .idleL)
      (edge_of_low rfl) (accTick_of_no_tick rfl)
    obtain ⟨hcount, hline⟩ := cycle_pulse_of_no_tick (p := s.params) (r := r) (i := inputsOf .idleL) rfl
    exact ⟨hp, hin, hd, rfl, helapsed, hcount, hpowered, hline⟩
  case idleH =>
    obtain ⟨⟨hp, hin, hd⟩, rfl⟩ := frame_of_exec_cycle rfl h hq
    obtain ⟨hcount, hline⟩ := cycle_pulse_of_no_tick (p := s.params) (r := r) (i := inputsOf .idleH) rfl
    exact ⟨hp, hin, hd, rfl, hcount, hline, fun hlast =>
      cycle_power_of_not_counted (edge_of_high_before hlast) (accTick_of_no_tick rfl)⟩
  case tick =>
    have hreset : isReset i = false := by
      rcases List.mem_pair.mp hi with rfl | rfl <;> rfl
    obtain ⟨⟨hp, hin, hd⟩, rfl⟩ := frame_of_exec_cycle hreset h hq
    refine ⟨hp, hin, hd, rfl, fun he hpow => ?_, nextPowered_of_no_edge_no_fire, fun hf hline => ?_,
      fun hrel hline => ?_⟩
    · simpa only [hpow] using cycle_power_of_not_counted (p := s.params) he (accTick_of_unpowered hpow)
    · simpa only [hline] using cycle_pulse_of_not_counted hf (seqTick_of_released hline)
    · exact (nextResetAsserted_of_no_fire_no_release (fire_of_asserted hline) hrel).trans hline

end Sys2Proof.Machine

/-! The statements of 10_state.md: the invariant of the machine and its frame, the state with no value, the registers'
meaning (outputs, state code, power, selector), and what holds in every state reached from a RESET. -/

namespace Sys2Proof.Machine

/-! ### How the events of one cycle exclude or bring about each other -/

section
variable {p : Params} {r : Registers} {i : Inputs}

theorem edge_of_reset (h : i.R = true) : edge r i = false := by simp [edge, h]

theorem accTick_of_edge (h : edge r i = true) : accTick r i = false := by simp [accTick, h]

/-- A tick the accumulator counts is counted by the sequencer too while the reset line is asserted (R81, R93). -/
theorem seqTick_of_accTick (ha : accTick r i = true) (hline : r.resetAsserted = true) : seqTick r i = true := by
  simp only [accTick, Bool.and_eq_true] at ha
  obtain ⟨⟨hRK, -⟩, -⟩ := ha
  simp only [seqTick, Bool.and_eq_true]
  exact ⟨hRK, hline⟩

/-- A counted tick that does not fire has the reset line asserted or stays below the threshold (R83, R84). -/
theorem satinc_lt_threshold_of_no_fire (ha : accTick r i = true) (hf : fire p r i = false)
    (hline : r.resetAsserted = false) : satinc p.wE r.elapsed < threshold p r.cfgSel := by
  simpa [fire, timeoutCond, ha, hline] using hf

/-- A tick the sequencer counts releases the line unless the count stays below the pulse width (R94). -/
theorem release_of_seqTick (ht : seqTick r i = true) :
    release p r i = !decide (satinc p.wR r.resetElapsed < pulseTicks p) := by
  rw [release, ht, Bool.true_and, ← decide_not]
  simp only [ge_iff_le, not_lt]

/-! ### What the two halves of a cycle can do -/

/-- From power on, a cycle cuts power exactly when it fires: a fire is no edge (R103, R104). -/
theorem nextPowered_of_powered (h : r.powered = true) : nextPowered p r i = !fire p r i := by
  cases he : edge r i with
  | true => simp [nextPowered, he, fire_of_no_accTick (accTick_of_edge he)]
  | false => cases hf : fire p r i <;> simp [nextPowered, he, hf, h]

/-- From power off, a cycle restores power exactly when it is an edge (R77, R103). -/
theorem nextPowered_of_unpowered (h : r.powered = false) : nextPowered p r i = edge r i := by
  simp [nextPowered, fire_of_no_accTick (accTick_of_unpowered h), h]

/-- What a cycle can do to `elapsed` and the power: an edge clears the one and sets the other, a counted tick
increments the one and cuts the other if it fires, and any other cycle leaves both (R82, R103). -/
theorem cycle_power_cases (p : Params) (r : Registers) (i : Inputs) :
    (edge r i = true ∧ nextElapsed p r i = 0 ∧ nextPowered p r i = true) ∨
    (accTick r i = true ∧ r.powered = true ∧
      nextElapsed p r i = satinc p.wE r.elapsed ∧ nextPowered p r i = !fire p r i) ∨
    (edge r i = false ∧ accTick r i = false ∧ nextElapsed p r i = r.elapsed ∧ nextPowered p r i = r.powered) := by
  cases he : edge r i with
  | true => exact .inl ⟨rfl, by simp [nextElapsed, he], by simp [nextPowered, he]⟩
  | false =>
    refine .inr ?_
    cases ha : accTick r i with
    | true =>
      have hpow := accTick_powered ha
      exact .inl ⟨rfl, hpow, by simp [nextElapsed, he, ha], nextPowered_of_powered hpow⟩
    | false => exact .inr ⟨rfl, rfl, cycle_power_of_not_counted he ha⟩

/-- What a cycle can do to `reset_elapsed` and the reset line: a fire starts a pulse, a tick counted during a pulse
increments the count and keeps the line while the count is below `P`, and any other cycle leaves both (R95, R103). -/
theorem cycle_pulse_cases (p : Params) (r : Registers) (i : Inputs) :
    (fire p r i = true ∧ nextResetElapsed p r i = 0 ∧ nextResetAsserted p r i = true) ∨
    (fire p r i = false ∧ seqTick r i = true ∧ nextResetElapsed p r i = satinc p.wR r.resetElapsed ∧
      nextResetAsserted p r i = decide (satinc p.wR r.resetElapsed < pulseTicks p)) ∨
    (fire p r i = false ∧ seqTick r i = false ∧
      nextResetElapsed p r i = r.resetElapsed ∧ nextResetAsserted p r i = r.resetAsserted) := by
  cases hf : fire p r i with
  | true => exact .inl ⟨rfl, by simp [nextResetElapsed, hf], by simp [nextResetAsserted, hf]⟩
  | false =>
    refine .inr ?_
    cases ht : seqTick r i with
    | true =>
      refine .inl ⟨rfl, rfl, by simp [nextResetElapsed, hf, ht], ?_⟩
      rw [nextResetAsserted, hf, release_of_seqTick ht, seqTick_resetAsserted ht]
      cases decide (satinc p.wR r.resetElapsed < pulseTicks p) <;> rfl
    | false => exact .inr ⟨rfl, rfl, cycle_pulse_of_not_counted hf ht⟩

/-- A cycle that leaves the reset line asserted without a fire found it asserted: only a fire starts a pulse (R96). -/
theorem resetAsserted_of_nextResetAsserted (hf : fire p r i = false) (h : nextResetAsserted p r i = true) :
    r.resetAsserted = true := by
  obtain ⟨hfire, -⟩ | ⟨-, ht, -⟩ | ⟨-, -, -, hline⟩ := cycle_pulse_cases p r i
  · simp [hf] at hfire
  · exact seqTick_resetAsserted ht
  · rw [← hline, h]

end

/-! ### A cycle keeps the invariant of the registers, clause by clause -/

section
variable {p : Params} {r : Registers} {i : Inputs}

theorem nextElapsed_le_max (h : r.elapsed ≤ 2 ^ p.wE - 1) : nextElapsed p r i ≤ 2 ^ p.wE - 1 := by
  obtain ⟨-, hel, -⟩ | ⟨-, -, hel, -⟩ | ⟨-, -, hel, -⟩ := cycle_power_cases p r i
  · exact hel ▸ Nat.zero_le _
  · exact hel ▸ satinc_le_max h
  · exact hel ▸ h

theorem nextResetElapsed_le_max (h : r.resetElapsed ≤ 2 ^ p.wR - 1) : nextResetElapsed p r i ≤ 2 ^ p.wR - 1 := by
  obtain ⟨-, hre, -⟩ | ⟨-, -, hre, -⟩ | ⟨-, -, hre, -⟩ := cycle_pulse_cases p r i
  · exact hre ▸ Nat.zero_le _
  · exact hre ▸ satinc_le_max h
  · exact hre ▸ h

/-- The count of a pulse that a cycle leaves running is below `P` (R44). -/
theorem nextResetElapsed_lt_pulse (hw : p.wellFormed = true)
    (hpulse : r.resetAsserted = true → r.resetElapsed + 1 ≤ pulseTicks p) (hline' : nextResetAsserted p r i = true) :
    nextResetElapsed p r i + 1 ≤ pulseTicks p := by
  obtain ⟨-, hre, -⟩ | ⟨-, -, hre, hline⟩ | ⟨-, -, hre, hline⟩ := cycle_pulse_cases p r i
  · simpa only [hre] using (wellFormed_pulse hw).1
  · rw [hre]
    exact of_decide_eq_true (hline ▸ hline')
  · rw [hre]
    exact hpulse (hline ▸ hline')

/-- During a pulse the sequencer's increment never saturates, since `P` fits its counter (R13, R89). -/
theorem satinc_resetElapsed (hw : p.wellFormed = true)
    (hpulse : r.resetElapsed + 1 ≤ pulseTicks p) : satinc p.wR r.resetElapsed = r.resetElapsed + 1 :=
  satinc_of_lt (Nat.lt_of_succ_le (hpulse.trans (wellFormed_pulse hw).2))

/-- A device powered during a pulse has been powered for no more of its ticks than the sequencer has counted: while both
count, they count the same ticks (R89). -/
theorem nextElapsed_le_nextResetElapsed (hw : p.wellFormed = true) (h : r.Inv p)
    (hpow' : nextPowered p r i = true) (hline' : nextResetAsserted p r i = true) :
    nextElapsed p r i ≤ nextResetElapsed p r i := by
  obtain ⟨-, -, hpulse, hboth, -, -⟩ := h
  obtain ⟨-, hel, -⟩ | ⟨ha, hpow, hel, hcut⟩ | ⟨-, ha, hel, hkeep⟩ := cycle_power_cases p r i
  · exact hel ▸ Nat.zero_le _
  · have hf : fire p r i = false := by simpa [hcut] using hpow'
    have hline := resetAsserted_of_nextResetAsserted hf hline'
    have ht := seqTick_of_accTick ha hline
    have hre : nextResetElapsed p r i = r.resetElapsed + 1 := by
      simp [nextResetElapsed, hf, ht, satinc_resetElapsed hw (hpulse hline)]
    calc nextElapsed p r i = satinc p.wE r.elapsed := hel
      _ ≤ r.elapsed + 1 := satinc_le_succ _ _
      _ ≤ r.resetElapsed + 1 := Nat.succ_le_succ (hboth hpow hline)
      _ = nextResetElapsed p r i := hre.symm
  · have hf : fire p r i = false := fire_of_no_accTick ha
    have hline := resetAsserted_of_nextResetAsserted hf hline'
    have hle : r.elapsed ≤ r.resetElapsed := hboth (hkeep ▸ hpow') hline
    obtain ⟨hfire, -⟩ | ⟨-, -, hre, -⟩ | ⟨-, -, hre, -⟩ := cycle_pulse_cases p r i
    · simp [hf] at hfire
    · exact hel ▸ hre ▸ hle.trans (le_satinc _ _)
    · exact hel ▸ hre ▸ hle

/-- Powered, `elapsed` is below the threshold, or it was counted during a pulse (R89). -/
theorem nextElapsed_le_of_powered (h : r.Inv p) (hpow' : nextPowered p r i = true) :
    nextElapsed p r i ≤ max (threshold p r.cfgSel - 1) (pulseTicks p) := by
  obtain ⟨-, -, hpulse, hboth, hnormal, -⟩ := h
  obtain ⟨-, hel, -⟩ | ⟨ha, hpow, hel, hcut⟩ | ⟨-, -, hel, hkeep⟩ := cycle_power_cases p r i
  · exact hel ▸ Nat.zero_le _
  · have hf : fire p r i = false := by simpa [hcut] using hpow'
    have hsucc := satinc_le_succ p.wE r.elapsed
    cases hline : r.resetAsserted with
    | true =>
      have := hpulse hline
      have := hboth hpow hline
      omega
    | false =>
      have := satinc_lt_threshold_of_no_fire ha hf hline
      omega
  · have hpow : r.powered = true := hkeep ▸ hpow'
    cases hline : r.resetAsserted with
    | true =>
      have := hpulse hline
      have := hboth hpow hline
      omega
    | false => exact hel ▸ hnormal hpow hline

/-- Unpowered, `elapsed` holds the count at which the timeout fired (R86, R89). -/
theorem nextElapsed_le_of_unpowered (h : r.Inv p) (hpow' : nextPowered p r i = false) :
    nextElapsed p r i ≤ max (threshold p r.cfgSel) (pulseTicks p + 1) := by
  obtain ⟨-, -, -, -, hnormal, hoff⟩ := h
  obtain ⟨-, -, hon⟩ | ⟨-, hpow, hel, hcut⟩ | ⟨-, -, hel, hkeep⟩ := cycle_power_cases p r i
  · simp [hon] at hpow'
  · have hf : fire p r i = true := by simpa [hcut] using hpow'
    have := hnormal hpow (fire_resetAsserted hf)
    have := satinc_le_succ p.wE r.elapsed
    omega
  · exact hel ▸ hoff (hkeep ▸ hpow')

theorem cycle_inv (hw : p.wellFormed = true) (h : r.Inv p) : (cycle p r i).Inv p := by
  have ⟨hE, hR, hpulse, _, _, _⟩ := h
  exact ⟨nextElapsed_le_max hE, nextResetElapsed_le_max hR, nextResetElapsed_lt_pulse hw hpulse,
    nextElapsed_le_nextResetElapsed hw h, fun hpow _ => nextElapsed_le_of_powered h hpow,
    nextElapsed_le_of_unpowered h⟩

end

theorem resetRegisters_inv {p : Params} (hw : p.wellFormed = true) (h : Bool) (sel : Sel) :
    (resetRegisters h sel).Inv p := by
  have hP := (wellFormed_pulse hw).1
  simp [Registers.Inv, hP]

/-- Every operation leaves registers within their invariant. -/
theorem regsAfter_inv {p : Params} (hw : p.wellFormed = true) (r : Registers) (i : Instr) (h : r.Inv p) :
    (regsAfter p r i).Inv p := by
  cases hi : isReset i with
  | true =>
    obtain ⟨b, sel, rfl⟩ := eq_reset_of_isReset hi
    exact resetRegisters_inv hw b sel
  | false => exact regsAfter_cycle hi p r ▸ cycle_inv hw h

/-! ### The step: its inversion, its frame and its invariant -/

/-- An operation that completes changes the registers alone, to those of a RESET or those it computes from the
registers it found. -/
theorem exec_eq_next {i : Instr} {s t : State} (h : exec i s = .next t) :
    ∃ q, t = s.withRegs q ∧
      ((∃ b sel, q = resetRegisters b sel) ∨ ∃ r, s.regs = some r ∧ q = regsAfter s.params r i) := by
  obtain ⟨b, sel, -, he⟩ | ⟨hi, r, hr, he⟩ | ⟨-, -, he⟩ := exec_cases i s
  · cases he.symm.trans h
    exact ⟨_, rfl, .inl ⟨b, sel, rfl⟩⟩
  · cases he.symm.trans h
    exact ⟨_, rfl, .inr ⟨r, hr, (regsAfter_cycle hi _ _).symm⟩⟩
  · cases he.symm.trans h

/-- A sample that is taken is the next one placed or one draw, and the registers keep their value or, after an unclocked
reset pulse, have none (R58, R143). -/
theorem sampleWord_eq_ok {s u : State} {w : OpWord} (h : sampleWord s = .ok (w, u)) :
    u.params = s.params ∧ u.inputs = s.inputs.drop 1 ∧ u.draws = s.draws + (if s.inputs = [] then 1 else 0) ∧
      (u.regs = s.regs ∨ u.regs = none) := by
  obtain ⟨-, he⟩ | ⟨-, hin, he⟩ | ⟨-, q, rest, hin, ⟨-, he⟩ | ⟨v, -, he⟩⟩ := sampleWord_cases s
  · cases he.symm.trans h
  · cases he.symm.trans h
    simp [hin]
  · cases he.symm.trans h
  · cases he.symm.trans h
    cases q.rstPulse <;> simp [hin]

/-- A step that completes has taken a sample and completed its operation. -/
theorem step_eq_next {s t : State} (h : step s = .next t) :
    ∃ w u, sampleWord s = .ok (w, u) ∧ exec (decodeWord w) u = .next t := by
  unfold step at h
  split at h
  · cases h
  · next w u hs => exact ⟨w, u, hs, h⟩

/-- Settles O59: the registers a step leaves are those of a RESET, or those an operation computes from registers within
the invariant. -/
theorem stepKeepsInvariant : Obligations.StepKeepsInvariant := by
  rintro s t ⟨hw, hinv⟩ hstep
  obtain ⟨w, u, hsample, hexec⟩ := step_eq_next hstep
  obtain ⟨hparams, -, -, hregs⟩ := sampleWord_eq_ok hsample
  obtain ⟨q, rfl, hq⟩ := exec_eq_next hexec
  suffices hqInv : q.Inv s.params by
    refine ⟨hparams ▸ hw, ?_⟩
    rintro _ ⟨⟩
    exact hparams ▸ hqInv
  obtain ⟨b, sel, rfl⟩ | ⟨r, hr, rfl⟩ := hq
  · exact resetRegisters_inv hw b sel
  · rw [hparams]
    refine regsAfter_inv hw r _ (hinv r ?_)
    rcases hregs with hsame | hnone
    · exact hsame ▸ hr
    · simp [hnone] at hr

/-- Settles O9: the sample accounts for the inputs and the draws, the operation for the registers. -/
theorem stepFrame : Obligations.StepFrame := by
  intro s t hstep
  obtain ⟨w, u, hsample, hexec⟩ := step_eq_next hstep
  obtain ⟨hparams, hinputs, hdraws, -⟩ := sampleWord_eq_ok hsample
  obtain ⟨q, rfl, -⟩ := exec_eq_next hexec
  exact ⟨hparams, hinputs, hdraws, q, rfl⟩

/-! ### The state with no value -/

/-- The machine elaboration builds: that of a well-formed record, its registers without a value (R13, R43). -/
theorem elaborate_eq_ok {p : Params} {s : State} (h : elaborate p = .ok s) :
    p.wellFormed = true ∧ s.params = p ∧ s.regs = none := by
  by_cases hw : p.wellFormed = true
  · cases (elaborate_of_wellFormed hw).symm.trans h
    exact ⟨hw, rfl, rfl⟩
  · cases (elaborate_of_not_wellFormed hw).symm.trans h

/-- In the state with no value every operation but RESET is the fault `NotReset` (R125). -/
theorem exec_of_no_regs {i : Instr} (hi : isReset i = false) {s : State} (hs : s.regs = none) :
    exec i s = .fault .notReset := by
  obtain ⟨h, sel, rfl, -⟩ | ⟨-, r, hr, -⟩ | ⟨-, -, he⟩ := exec_cases i s
  · cases hi
  · simp [hs] at hr
  · exact he

/-- Settles O21: elaboration leaves the registers without a value, and RESET reads none. -/
theorem notResetFault : Obligations.NotResetFault := by
  refine ⟨fun p s h => ?elaborated, fun s i hs => ⟨fun hi => exec_of_no_regs hi hs, fun hi => ?reset⟩⟩
  case elaborated =>
    obtain ⟨-, -, hregs⟩ := elaborate_eq_ok h
    exact hregs
  case reset =>
    obtain ⟨h, sel, rfl⟩ := eq_reset_of_isReset hi
    exact ⟨resetRegisters h sel, rfl⟩

/-- Settles O22: the clauses on outputs and registers are the definitions' own; an unclocked pulse takes the value. -/
theorem asynchronousReset : Obligations.AsynchronousReset := by
  intro s r i h sel
  exact ⟨rfl, rfl, rfl, rfl, rfl, rfl, rfl, rfl, rfl, fun hi => exec_of_no_regs hi rfl⟩

/-! ### The state after reset -/

/-- Settles O23: the state after reset is a closed term, and RESET writes the registers it already holds. -/
theorem stateAfterReset : Obligations.StateAfterReset := by
  refine ⟨rfl, rfl, rfl, ?_, rfl, rfl⟩
  rintro _ ⟨⟩
  rfl

/-- Settles O60: RESET's registers are within the invariant, and an elaborated machine has none. -/
theorem resetMeetsInvariant : Obligations.ResetMeetsInvariant := by
  have hdefault : Params.default.wellFormed = true := by decide
  refine ⟨⟨hdefault, ?_⟩, fun p s h => ?_⟩
  · rintro _ ⟨⟩
    exact resetRegisters_inv hdefault false 0
  · obtain ⟨hw, rfl, hregs⟩ := elaborate_eq_ok h
    exact ⟨hw, by simp [hregs]⟩

/-! ### Outputs, state code and power -/

theorem fsmCode_fsm (r : Registers) :
    fsmCode (fsm r) = BitVec.ofBool r.powered ++ BitVec.ofBool r.resetAsserted := by
  unfold fsm
  split <;> simp [fsmCode, *]

theorem fsmCode_injective : Function.Injective fsmCode := by
  intro f g
  cases f <;> cases g <;> decide

/-- The supervisor state is the one whose code the two registers are (R38). -/
theorem fsm_eq_iff (r : Registers) (f : Fsm) (powered asserted : Bool)
    (hcode : fsmCode f = BitVec.ofBool powered ++ BitVec.ofBool asserted) :
    fsm r = f ↔ r.powered = powered ∧ r.resetAsserted = asserted := by
  have bits : ∀ a b c d : Bool, BitVec.ofBool a ++ BitVec.ofBool b = BitVec.ofBool c ++ BitVec.ofBool d ↔
      a = c ∧ b = d := by decide
  rw [← fsmCode_injective.eq_iff, fsmCode_fsm, hcode, bits]

/-- Settles O46: the state code is injective, so each state is named by its two bits. -/
theorem outputsAndStateCode : Obligations.OutputsAndStateCode := by
  intro s r
  exact ⟨rfl, fsmCode_fsm r, fsm_eq_iff r .normal _ _ rfl, fsm_eq_iff r .failed _ _ rfl,
    fsm_eq_iff r .recovering _ _ rfl, fsm_eq_iff r .restoredInReset _ _ rfl⟩

/-- Settles O52: a RESET is no edge and cuts power, and a cycle changes power by an edge or a fire. -/
theorem powerChangesOnlyByEdgeFireOrReset : Obligations.PowerChangesOnlyByEdgeFireOrReset := by
  intro s r i
  refine ⟨_, exec_withRegs i s r, ?_⟩
  cases hi : isReset i with
  | true =>
    have hedge : edge r (inputsOf i) = false := edge_of_reset hi
    obtain ⟨h, sel, rfl⟩ := eq_reset_of_isReset hi
    simp [regsAfter, hedge]
  | false =>
    rw [regsAfter_cycle hi, cycle_powered]
    exact ⟨fun hpow => by simp [nextPowered_of_unpowered hpow], fun hpow => by simp [nextPowered_of_powered hpow]⟩

/-! ### Runs -/

theorem isReset_of_noReset {is : List Instr} (h : noReset is = true) {i : Instr} (hi : i ∈ is) : isReset i = false := by
  simpa using List.all_eq_true.mp h i hi

theorem noReset_append (is js : List Instr) : noReset (is ++ js) = (noReset is && noReset js) := List.all_append

/-- What every operation of a list keeps, the run of the list keeps. -/
theorem runRegs_keeps {p : Params} {holds : Registers → Prop} {is : List Instr}
    (hstep : ∀ i ∈ is, ∀ r, holds r → holds (regsAfter p r i)) {r : Registers} (h : holds r) :
    holds (runRegs p is r) := by
  induction is generalizing r with
  | nil => exact h
  | cons i is ih =>
    exact ih (fun j hj => hstep j (List.mem_cons_of_mem i hj)) (hstep i List.mem_cons_self r h)

theorem runRegs_inv {p : Params} (hw : p.wellFormed = true) (is : List Instr) {r : Registers} (h : r.Inv p) :
    (runRegs p is r).Inv p :=
  runRegs_keeps (fun i _ r => regsAfter_inv hw r i) h

/-- The selector is constant while reset is deasserted (R34). -/
theorem runRegs_cfgSel (p : Params) {is : List Instr} (h : noReset is = true) (r : Registers) :
    (runRegs p is r).cfgSel = r.cfgSel := by
  refine runRegs_keeps (holds := fun q => q.cfgSel = r.cfgSel) (fun i hi q hq => ?_) rfl
  rwa [regsAfter_cycle (isReset_of_noReset h hi), cycle_cfgSel]

/-- Settles O53: the run before the RESET leaves some registers, the RESET loads its strap value, the rest keeps it. -/
theorem selectorIsConstantPerBoot : Obligations.SelectorIsConstantPerBoot := by
  intro s before after h sel hafter r
  refine ⟨_, runOps_withRegs _ s r, ?_⟩
  rw [runRegs_append]
  exact runRegs_cfgSel s.params hafter (resetRegisters h sel)

/-- A cycle that starts and ends unpowered leaves `elapsed`: it counts no tick and is no edge (R86). -/
theorem nextElapsed_of_stays_unpowered {p : Params} {r : Registers} {i : Inputs} (h : r.powered = false)
    (h' : nextPowered p r i = false) : nextElapsed p r i = r.elapsed :=
  nextElapsed_of_not_counted (nextPowered_of_unpowered h ▸ h') (accTick_of_unpowered h)

/-- A run that is unpowered throughout leaves `elapsed` (R44, R86). -/
theorem runRegs_elapsed_of_unpowered {p : Params} {is : List Instr} (hno : noReset is = true) {r : Registers}
    (h : ∀ part rest, is = part ++ rest → (runRegs p part r).powered = false) :
    (runRegs p is r).elapsed = r.elapsed := by
  induction is generalizing r with
  | nil => rfl
  | cons i is ih =>
    have hi : isReset i = false := isReset_of_noReset hno List.mem_cons_self
    have hrest : noReset is = true := (Bool.and_eq_true_iff.mp hno).2
    have hnow : r.powered = false := h [] (i :: is) rfl
    have hnext : (regsAfter p r i).powered = false := h [i] is rfl
    calc (runRegs p is (regsAfter p r i)).elapsed
      _ = (regsAfter p r i).elapsed := ih hrest fun part rest hsplit => h (i :: part) rest (by rw [hsplit]; rfl)
      _ = r.elapsed := by
        rw [regsAfter_cycle hi] at hnext ⊢
        exact nextElapsed_of_stays_unpowered hnow hnext

/-- Under a separated record a powered device's count is below its threshold (R44). -/
theorem elapsed_lt_threshold_of_separated {p : Params} {r : Registers} (hinv : r.Inv p) (hsep : p.separated = true)
    (hpow : r.powered = true) : r.elapsed ≤ threshold p r.cfgSel - 1 := by
  obtain ⟨-, -, hpulse, hboth, hnormal, -⟩ := hinv
  have hgap := separated_threshold hsep r.cfgSel
  cases hline : r.resetAsserted with
  | true =>
    have := hpulse hline
    have := hboth hpow hline
    omega
  | false =>
    have := hnormal hpow hline
    omega

/-- Settles O58: the invariant of the registers holds along the run, the selector is kept, and so is `elapsed` over the
unpowered end of the run. -/
theorem reachableStateInvariants : Obligations.ReachableStateInvariants := by
  intro s h sel ops hw hno
  have hinv : (runRegs s.params ops (resetRegisters h sel)).Inv s.params :=
    runRegs_inv hw ops (resetRegisters_inv hw h sel)
  refine ⟨_, runOps_reset_withRegs h sel ops s, runRegs_cfgSel s.params hno _, ?pulse, ?elapsed,
    elapsed_lt_threshold_of_separated hinv⟩
  case pulse =>
    obtain ⟨-, -, hpulse, -⟩ := hinv
    exact fun hline => Nat.le_sub_one_of_lt (hpulse hline)
  case elapsed =>
    rintro done since rfl hoff
    refine ⟨_, runOps_reset_withRegs h sel done s, ?_⟩
    have hsince : noReset since = true := (Bool.and_eq_true_iff.mp (noReset_append done since ▸ hno)).2
    rw [runRegs_append]
    refine runRegs_elapsed_of_unpowered hsince fun part rest hsplit => ?_
    obtain ⟨u, hrun, hpow⟩ := hoff part rest hsplit
    rw [runOps_reset_withRegs, runRegs_append, Host.Outcome.next.injEq, State.withRegs_inj] at hrun
    exact hrun ▸ hpow

end Sys2Proof.Machine

/-! The statements of 20_memory.md: a run of the machine over placed words is a run of their operations. -/

namespace Sys2Proof.Machine

/-! ### One cycle of a run -/

/-- A step with a word on the ports performs the operation of that word (R59, R62). -/
theorem step_placeWord {s : State} (hw : s.params.wellFormed = true) (w : OpWord) :
    step (placeWord w s) = exec (decodeWord w) { s with inputs := s.inputs.drop 1 } := by
  rw [step, sampleWord_placeWord w s hw]

/-- From registers that have a value every operation completes, and changes nothing but them. -/
theorem exec_of_regs {i : Instr} {s : State} {r : Registers} (h : s.regs = some r) :
    exec i s = .next (s.withRegs (regsAfter s.params r i)) := by
  rw [← exec_withRegs, s.withRegs_self r h]

/-- No operation reads the environment's coming samples: whichever they are, it writes the same registers and leaves
them, or it faults (R53). -/
theorem exec_inputs_cases (i : Instr) (s : State) :
    (∃ q, ∀ later, exec i { s with inputs := later } = .next { s.withRegs q with inputs := later }) ∨
    (∀ later, exec i { s with inputs := later } = .fault .notReset) := by
  obtain hr | ⟨r, hr⟩ := Option.eq_none_or_eq_some s.regs
  · cases hi : isReset i with
    | true =>
      obtain ⟨h, sel, rfl⟩ := eq_reset_of_isReset hi
      exact .inl ⟨resetRegisters h sel, fun _ => rfl⟩
    | false => exact .inr fun _ => exec_of_no_regs hi hr
  · exact .inl ⟨regsAfter s.params r i, fun _ => exec_of_regs hr⟩

theorem run_of_step_next {M : Host.Core} {s t : M.State} (h : M.step s = .next t) (k : Nat) :
    M.run (k + 1) s = M.run k t := by
  rw [Host.Core.run, h]

theorem run_of_step_fault {M : Host.Core} {s : M.State} {e : M.Fault} (h : M.step s = .fault e) (k : Nat) :
    M.run (k + 1) s = .fault e := by
  rw [Host.Core.run, h]

theorem runOps_of_exec_next {i : Instr} {s t : State} (h : exec i s = .next t) (is : List Instr) :
    runOps (i :: is) s = runOps is t := by
  rw [runOps, h]

theorem runOps_of_exec_fault {i : Instr} {s : State} {e : Fault} (h : exec i s = .fault e) (is : List Instr) :
    runOps (i :: is) s = .fault e := by
  rw [runOps, h]

/-! ### The run -/

/-- Settles O10, by induction on the words: the first cycle performs its word's operation, which leaves the later
samples alone, so both runs go on from the same registers or both stop with the same fault. -/
theorem runsComposeOperations : Obligations.RunsComposeOperations := by
  intro ws rest s hw
  induction ws generalizing s with
  | nil => rfl
  | cons w ws ih =>
    have hstep : step { s with inputs := (w :: ws).map wordSample ++ rest } =
        exec (decodeWord w) { s with inputs := ws.map wordSample ++ rest } :=
      step_placeWord (s := { s with inputs := (w :: ws).map wordSample ++ rest }) hw w
    obtain ⟨q, hnext⟩ | hfault := exec_inputs_cases (decodeWord w) s
    · have hrun := run_of_step_next (M := Sys2Proof.core) (hstep.trans (hnext _)) ws.length
      have hops := runOps_of_exec_next (hnext rest) (ws.map decodeWord)
      exact hrun.trans ((ih (s.withRegs q) hw).trans hops.symm)
    · have hrun := run_of_step_fault (M := Sys2Proof.core) (hstep.trans (hfault _)) ws.length
      have hops := runOps_of_exec_fault (hfault rest) (ws.map decodeWord)
      exact hrun.trans hops.symm

end Sys2Proof.Machine

/-! The statements of 30_encoding.md: the rows of the opcode table, the encoder, the ports that carry a word, the text
of an operation, and the step that performs a word. -/

namespace Sys2Proof.Machine

open Sys2Proof.Laws

/-! ### What a word decodes to -/

/-- A word with bit 5 set is a RESET, whatever its tick bit (R62). -/
theorem decodeWord_of_rBit {w : OpWord} (h : w.rBit = true) : decodeWord w = .reset w.hBit w.sField := by
  rw [decodeWord, h]

/-- With bit 5 clear, the operation is the one of the tick and heartbeat bits (R62). -/
theorem inputsOf_decodeWord_of_not_rBit {w : OpWord} (h : w.rBit = false) :
    inputsOf (decodeWord w) = { R := false, K := w.kBit, H := w.hBit, S := 0 } := by
  rw [decodeWord, h]
  cases w.kBit <;> cases w.hBit <;> rfl

/-- Words that agree on the bits their row reads decode alike (R63, R69). -/
theorem decodeWord_congr {w v : OpWord} (hr : w.rBit = v.rBit) (hh : w.hBit = v.hBit)
    (hs : w.rBit = true → w.sField = v.sField) (hk : w.rBit = false → w.kBit = v.kBit) :
    decodeWord w = decodeWord v := by
  cases h : w.rBit with
  | true => rw [decodeWord_of_rBit h, decodeWord_of_rBit (hr ▸ h), hh, hs h]
  | false =>
    rw [decodeWord, decodeWord, ← hr, ← hh, ← hk h, h]
    cases w.kBit <;> cases w.hBit <;> rfl

/-! ### The five rows -/

/-- The RESET row tests bit 5. -/
theorem resetRow_iff (w : OpWord) : w &&& 0b100000#6 = 0b100000#6 ↔ w.rBit = true := by
  revert w; decide

/-- Each of the other rows tests bits 5, 4 and 3 against three values. -/
theorem cycleRow_iff (w : OpWord) (r k h : Bool) :
    w &&& 0b111000#6 = BitVec.ofBool r ++ BitVec.ofBool k ++ BitVec.ofBool h ++ 0#3 ↔
      w.rBit = r ∧ w.kBit = k ∧ w.hBit = h := by
  revert w r k h; decide

theorem idleLRow_iff (w : OpWord) :
    w &&& 0b111000#6 = 0b000000#6 ↔ w.rBit = false ∧ w.kBit = false ∧ w.hBit = false :=
  cycleRow_iff w false false false

theorem idleHRow_iff (w : OpWord) :
    w &&& 0b111000#6 = 0b001000#6 ↔ w.rBit = false ∧ w.kBit = false ∧ w.hBit = true :=
  cycleRow_iff w false false true

theorem tickLRow_iff (w : OpWord) :
    w &&& 0b111000#6 = 0b010000#6 ↔ w.rBit = false ∧ w.kBit = true ∧ w.hBit = false :=
  cycleRow_iff w false true false

theorem tickHRow_iff (w : OpWord) :
    w &&& 0b111000#6 = 0b011000#6 ↔ w.rBit = false ∧ w.kBit = true ∧ w.hBit = true :=
  cycleRow_iff w false true true

/-- Settles O1: the rows test bits 5, 4 and 3 only, and each value of these selects its one row. -/
theorem rowsPartitionWords : Obligations.RowsPartitionWords := by
  intro w
  simp only [resetRow_iff, idleLRow_iff, idleHRow_iff, tickLRow_iff, tickHRow_iff]
  refine ⟨decodeWord_of_rBit, ?_, ?_, ?_, ?_, ?oneRow⟩
  case oneRow => cases w.rBit <;> cases w.kBit <;> cases w.hBit <;> rfl
  all_goals
    rintro ⟨hr, hk, hh⟩
    rw [decodeWord, hr, hk, hh]

/-- Settles O3: the fifteen words are closed terms, each decoded by evaluation. -/
theorem writtenWordsDecode : Obligations.WrittenWordsDecode := by
  unfold Obligations.WrittenWordsDecode
  decide

/-! ### The encoder -/

/-- The canonical word of an operation lies in its row, whose mask is among the bits the operation reads, and its
ignored bits are 0 (R62, R63, R70). -/
theorem tableRow : ∀ i : Instr, TableRow.Statement i
  | .reset h sel => TableRow.reset h sel
  | .idleL => TableRow.idleL
  | .idleH => TableRow.idleH
  | .tickL => TableRow.tickL
  | .tickH => TableRow.tickH

/-- Decoding gives back the operation that was encoded (R70). -/
@[simp] theorem decodeWord_encode (i : Instr) : decodeWord (encode i) = i := by
  cases i with
  | reset h sel => revert h sel; decide
  | idleL => rfl
  | idleH => rfl
  | tickL => rfl
  | tickH => rfl

theorem encode_injective : Function.Injective encode := Function.LeftInverse.injective decodeWord_encode

/-- The canonical word of the operation a word selects is that word with its ignored bits cleared (R63). -/
theorem encode_decodeWord (w : OpWord) : encode (decodeWord w) = w &&& (decodeWord w).careMask := by
  revert w; decide

/-- Clearing the ignored bits of a canonical word leaves it as it is. -/
theorem encode_and_careMask (i : Instr) : encode i &&& i.careMask = encode i := by
  have h := encode_decodeWord (encode i)
  rw [decodeWord_encode] at h
  exact h.symm

/-- A word in the row of an operation decodes to an operation of that row, so it ignores the same bits. -/
theorem careMask_decodeWord_of_row {w : OpWord} {i : Instr} (h : w &&& i.rowMask = i.rowMatch) :
    (decodeWord w).careMask = i.careMask := by
  obtain ⟨hreset, hidleL, hidleH, htickL, htickH, -⟩ := rowsPartitionWords w
  cases i with
  | reset b sel => rw [hreset h]; rfl
  | idleL => rw [hidleL h]
  | idleH => rw [hidleH h]
  | tickL => rw [htickL h]
  | tickH => rw [htickH h]

/-- A word that agrees with the canonical word of an operation on the bits the operation reads is in its row. -/
theorem row_of_agree {w : OpWord} {i : Instr} (h : w &&& i.careMask = encode i) : w &&& i.rowMask = i.rowMatch := by
  obtain ⟨hmatch, hmask, -⟩ := tableRow i
  calc w &&& i.rowMask
      = w &&& i.careMask &&& i.rowMask := by rw [BitVec.and_assoc, BitVec.and_comm i.careMask, hmask]
    _ = i.rowMatch := by rw [h, hmatch]

/-- A word decodes to an operation exactly when, its ignored bits cleared, it is the operation's canonical word (R62,
R63). -/
theorem decodeWord_eq_iff (w : OpWord) (i : Instr) : decodeWord w = i ↔ w &&& i.careMask = encode i := by
  constructor
  · rintro rfl
    exact (encode_decodeWord w).symm
  · intro h
    apply encode_injective
    rw [encode_decodeWord, careMask_decodeWord_of_row (row_of_agree h), h]

/-! ### Words in bytes (log entry 5) -/

/-- The byte that carries a word is decoded to the word's operation, and the bytes after it are left. -/
theorem decodeBytes_word (w : OpWord) (rest : List Byte) :
    decodeBytes (w.setWidth 8 :: rest) = .ok (decodeWord w, rest) := by
  have hsmall : (w.setWidth 8).toNat < 64 := by rw [BitVec.toNat_setWidth_of_le (by decide)]; exact w.isLt
  have hback : (w.setWidth 8).setWidth 6 = w := by simp
  rw [decodeBytes, if_pos hsmall, hback]

/-- A word numbered as the table numbers its bits decodes to the word's operation. -/
theorem decodeTableWord_word (w : OpWord) : decodeTableWord 8 w.toNat = some (decodeWord w) := by
  have hlt : w.toNat < 256 := w.isLt.trans (by decide)
  have hbyte : BitVec.ofNat 8 w.toNat = w.setWidth 8 := BitVec.ofNat_toNat 8 w
  rw [decodeTableWord, Nat.mod_eq_of_lt (show w.toNat < 2 ^ 8 from hlt), if_pos hlt, hbyte, decodeBytes_word]

/-- Settles O2: an operation is the decoding of exactly the words that, their ignored bits cleared, are its canonical
word; and bytes carry words unchanged. -/
theorem decodeEncodeAgree : Obligations.DecodeEncodeAgree := by
  intro i rest
  obtain ⟨-, -, hignored⟩ := tableRow i
  refine ⟨decodeWord_encode i, ?_, ?_, fun w => ?_, hignored⟩
  · rw [encodeBytes, List.singleton_append, decodeBytes_word, decodeWord_encode]
  · rw [decodeTableWord_word, decodeWord_encode]
  · rw [encode_and_careMask, decodeWord_eq_iff]

/-! ### The ports -/

theorem levelBit_eq_some_iff (l : Level) (b : Bool) : levelBit l = some b ↔ l = levelOf b := by
  cases l <;> cases b <;> decide

theorem levelOf_eq_ite (b : Bool) : levelOf b = if b then .high else .low := by cases b <;> rfl

theorem levelOf_not_eq_ite (b : Bool) : levelOf (!b) = if b then .low else .high := by cases b <;> rfl

/-- The levels that carry a word written out bit by bit, reset inverted (R60). -/
theorem wordPorts_append (n k h s2 s1 s0 : Bool) :
    wordPorts (BitVec.ofBool (!n) ++ BitVec.ofBool k ++ BitVec.ofBool h
        ++ (BitVec.ofBool s2 ++ BitVec.ofBool s1 ++ BitVec.ofBool s0)) =
      { rstN := levelOf n, tick := levelOf k, hbIn := levelOf h
        strap2 := levelOf s2, strap1 := levelOf s1, strap0 := levelOf s0 } := by
  revert n k h s2 s1 s0; decide

/-- The ports show a word exactly when they are at the levels that carry it (R60). -/
theorem portsWord_eq_some_iff (q : Ports) (w : OpWord) : portsWord q = some w ↔ q = wordPorts w := by
  constructor
  · intro h
    unfold portsWord at h
    split at h
    · next hn hk hh h2 h1 h0 =>
      rw [levelBit_eq_some_iff] at hn hk hh h2 h1 h0
      obtain rfl := Option.some.inj h
      rw [wordPorts_append, ← hn, ← hk, ← hh, ← h2, ← h1, ← h0]
    · cases h
  · rintro rfl
    exact portsWord_wordPorts w

/-- Settles O4: the levels are those `wordPorts` writes, and the inputs are RESET's or those of the tick and heartbeat
bits. -/
theorem portsCarryTheWord : Obligations.PortsCarryTheWord := by
  intro w
  constructor
  · intro q
    rw [portsWord_eq_some_iff, wordPorts, OpWord.rBit, OpWord.kBit, OpWord.hBit, levelOf_not_eq_ite]
    simp only [levelOf_eq_ite]
  · cases hr : w.getLsbD 5 with
    | true =>
      rw [decodeWord_of_rBit hr]
      exact ⟨rfl, rfl, nofun, fun _ => rfl⟩
    | false =>
      rw [inputsOf_decodeWord_of_not_rBit hr]
      exact ⟨rfl, rfl, fun _ => rfl, nofun⟩

/-! ### The text of an operation -/

theorem mem_allOps (i : Instr) : i ∈ allOps := by
  cases i with
  | reset h sel => revert h sel; decide
  | idleL => decide
  | idleH => decide
  | tickL => decide
  | tickH => decide

/-- The twenty texts are distinct. -/
theorem nodup_opTexts : (allOps.map opText).Nodup := by decide

theorem opText_injective : Function.Injective opText := fun i j h =>
  List.inj_on_of_nodup_map nodup_opTexts (mem_allOps i) (mem_allOps j) h

/-- Settles O5: the search finds an operation with the text, and no two operations share one. -/
theorem operationTextNamesIt : Obligations.OperationTextNamesIt := by
  refine fun i => ⟨?_, fun j h => opText_injective h⟩
  have hfound : (parseOp (opText i)).isSome = true :=
    List.find?_isSome.mpr ⟨i, mem_allOps i, beq_self_eq_true _⟩
  obtain ⟨j, hj⟩ := Option.isSome_iff_exists.mp hfound
  have htext : opText j = opText i := eq_of_beq (List.find?_some (p := fun k => opText k == opText i) hj)
  rw [hj, opText_injective htext]

/-! ### The step of a word -/

/-- A machine of an ill-formed record refuses every step (R13). -/
theorem step_of_not_wellFormed {s : State} (hw : s.params.wellFormed = false) : step s = .refused .illFormedRecord :=
  (step_eq_refused_iff s _).mpr ((sampleWord_eq_error_iff s _).mpr (.inl ⟨hw, rfl⟩))

/-- Settles O8: words that agree on the bits their row reads decode alike, and no operation is refused. -/
theorem ignoredBitsChangeNothing : Obligations.IgnoredBitsChangeNothing := by
  intro s w v hr hh hs hk
  cases hw : s.params.wellFormed with
  | true =>
    rw [step_placeWord hw, step_placeWord hw, decodeWord_congr hr hh hs hk]
    exact ⟨rfl, fun _ => exec_ne_refused _ _⟩
  | false =>
    refine ⟨?_, nofun⟩
    rw [step_of_not_wellFormed (s := placeWord w s) hw, step_of_not_wellFormed (s := placeWord v s) hw]

/-- A step with a sample placed performs the operation of the word its ports show, on registers that have no value if an
unclocked reset pulse came before it (R59, R62, R143). -/
theorem step_of_sample {s : State} (hw : s.params.wellFormed = true) {q : Sample} {rest : List Sample} {w : OpWord}
    (hin : s.inputs = q :: rest) (hq : portsWord q.ports = some w) :
    step s = exec (decodeWord w) { (if q.rstPulse then unclockedResetPulse s else s) with inputs := rest } := by
  simp only [step, sampleWord, hw, hin, hq, if_true]

/-- A step with no sample placed performs the operation of the environment's own word (R121). -/
theorem step_of_no_sample {s : State} (hw : s.params.wellFormed = true) (hin : s.inputs = []) :
    step s = exec (decodeWord (Config.envWord s.draws)) { s with draws := s.draws + 1 } := by
  simp only [step, sampleWord, hw, hin, if_true]

/-- Settles O6: a placed sample is taken with or without the pulse before it, no sample means a draw, and the word of
`withFetchWord` is a placed one. -/
theorem stepRunsTheDecodedOperation : Obligations.StepRunsTheDecodedOperation := by
  intro s hw
  refine ⟨fun q w rest hin hq => ⟨fun hp => ?_, fun hp => ?_⟩, step_of_no_sample hw, fun _ _ => step_placeWord hw _⟩
  · simp only [step_of_sample hw hin hq, hp, Bool.false_eq_true, if_false]
  · simp only [step_of_sample hw hin hq, hp, if_true, unclockedResetPulse]

end Sys2Proof.Machine

/-! The statements of 40_heartbeat_edge_detector.md: the edge function, the level a cycle leaves for the next, and what
an edge does to power and pulse. -/

namespace Sys2Proof.Machine

/-! ### The edge function and the tracked level -/

/-- Settles O26: an edge is the conjunction of its three conditions. -/
theorem edgeFunction : Obligations.EdgeFunction := by
  intro r i
  simp only [edge, Bool.and_eq_true, Bool.not_eq_true', and_assoc]

/-- Outside reset an edge is a high sample after a low level (R73). -/
theorem edge_of_not_reset {j : Instr} (hj : isReset j = false) (q : Registers) :
    edge q (inputsOf j) = (levelIn j && !q.lastLevel) := by
  have hR : (inputsOf j).R = false := hj
  rw [edge, hR, Bool.not_false, Bool.true_and, levelIn]

/-- Every operation writes the sampled level: RESET loads it, the cycle step tracks it (R74, R105). -/
@[simp] theorem regsAfter_lastLevel (p : Params) (r : Registers) (i : Instr) :
    (regsAfter p r i).lastLevel = levelIn i := by
  cases hi : isReset i with
  | true =>
    obtain ⟨h, sel, rfl⟩ := eq_reset_of_isReset hi
    rfl
  | false => rw [regsAfter_cycle hi, cycle_lastLevel, levelIn]

/-- Settles O27: every operation completes, and the registers it leaves hold the sampled level. -/
theorem levelTracking : Obligations.LevelTracking := fun s r i =>
  ⟨_, exec_withRegs i s r, regsAfter_lastLevel s.params r i⟩

/-- An operation that completes leaves the level sampled in its cycle, from the state with no value too (R74). -/
theorem lastLevel_of_exec_eq_next {i : Instr} {s t : State} {q : Registers} (h : exec i s = .next t)
    (hq : t.regs = some q) : q.lastLevel = levelIn i := by
  obtain ⟨b, sel, rfl, he⟩ | ⟨-, r, hr, -⟩ | ⟨-, -, he⟩ := exec_cases i s
  · cases he.symm.trans h
    cases hq
    rfl
  · cases (exec_of_regs hr).symm.trans h
    cases hq
    exact regsAfter_lastLevel s.params r i
  · cases he.symm.trans h

/-- Settles O28: the level the cycle before left is the one it sampled. -/
theorem edgeOncePerTransition : Obligations.EdgeOncePerTransition := by
  intro s t q i j h hq hj
  rw [edge_of_not_reset hj, lastLevel_of_exec_eq_next h hq, Bool.and_eq_true, Bool.not_eq_true']

/-! ### A level that is held -/

/-- A run that samples only the level it started from leaves that level (R74). -/
theorem runRegs_lastLevel_of_held {p : Params} {is : List Instr} {h : Bool} (hheld : ∀ k ∈ is, levelIn k = h)
    {r : Registers} (hr : r.lastLevel = h) : (runRegs p is r).lastLevel = h :=
  runRegs_keeps (holds := fun q => q.lastLevel = h)
    (fun k hk r _ => (regsAfter_lastLevel p r k).trans (hheld k hk)) hr

/-- Settles O29: the first high cycle leaves the level high, the cycles between keep it, so the last finds it high. -/
theorem heldLevelIsNotAnEdge : Obligations.HeldLevelIsNotAnEdge := by
  intro s r i j between hheld
  have hfirst : (regsAfter s.params r i).lastLevel = true :=
    (regsAfter_lastLevel s.params r i).trans (hheld i List.mem_cons_self).2
  have hlast : (runRegs s.params between (regsAfter s.params r i)).lastLevel = true :=
    runRegs_lastLevel_of_held (fun k hk => (hheld k (by simp [hk])).2) hfirst
  exact ⟨_, runOps_withRegs (i :: between) s r, edge_of_high_before hlast⟩

/-- Settles O30: RESET loads the sampled level, the cycles between keep it, and the first high one is an edge exactly
when it is low. -/
theorem firstEdgeAfterReset : Obligations.FirstEdgeAfterReset := by
  intro s h sel j between
  refine ⟨fun r => edge_of_reset rfl, fun hheld hj hhigh => ⟨_, runOps_reset_withRegs h sel between s, ?_⟩⟩
  have hlast : (runRegs s.params between (resetRegisters h sel)).lastLevel = h :=
    runRegs_lastLevel_of_held (fun k hk => (hheld k hk).2) rfl
  rw [edge_of_not_reset hj, hhigh, hlast, Bool.true_and]

/-! ### What an edge does -/

section
variable {p : Params} {r : Registers} {i : Inputs}

theorem nextElapsed_of_edge (h : edge r i = true) : nextElapsed p r i = 0 := if_pos h

theorem nextPowered_of_edge (h : edge r i = true) : nextPowered p r i = true := if_pos h

theorem nextResetElapsed_of_no_fire (hf : fire p r i = false) :
    nextResetElapsed p r i = if seqTick r i then satinc p.wR r.resetElapsed else r.resetElapsed := by
  rw [nextResetElapsed, hf, if_neg Bool.false_ne_true]

theorem nextResetAsserted_of_no_fire (hf : fire p r i = false) :
    nextResetAsserted p r i = if release p r i then false else r.resetAsserted := by
  rw [nextResetAsserted, hf, if_neg Bool.false_ne_true]

/-- An edge wins over the tick of its cycle, so that the cycle cannot fire (R90, R104). -/
theorem fire_of_edge (h : edge r i = true) : fire p r i = false := fire_of_no_accTick (accTick_of_edge h)

end

/-- Settles O31: a cycle with an edge is no RESET and cannot fire, so its pulse writes are the sequencer's own. -/
theorem edgeRestoresPower : Obligations.EdgeRestoresPower := by
  intro s r i he
  have hi : isReset i = false := ((edgeFunction r (inputsOf i)).mp he).1
  have hf : fire s.params r (inputsOf i) = false := fire_of_edge he
  exact ⟨_, exec_cycle hi s r, nextElapsed_of_edge he, nextPowered_of_edge he, nextResetElapsed_of_no_fire hf,
    nextResetAsserted_of_no_fire hf⟩

end Sys2Proof.Machine

/-! The statements of 41_timer_accumulator.md: which ticks are counted and what becomes of `elapsed`, when the timeout
fires, that it fires once per episode and is suspended while power is off, that its count does not saturate, and when a
silent device times out. -/

namespace Sys2Proof.Machine

/-! ### The accumulator in one cycle -/

/-- The accumulator counts the ticks of a powered device outside reset, but not in the cycle of an edge (R81). -/
theorem accTick_iff (r : Registers) (i : Instr) :
    accTick r (inputsOf i) = true ↔
      isReset i = false ∧ isTick i = true ∧ r.powered = true ∧ edge r (inputsOf i) = false := by
  simp only [accTick, isReset, isTick, Bool.and_eq_true, Bool.not_eq_true', and_assoc]

section
variable {p : Params} {r : Registers} {i : Inputs}

theorem edge_of_accTick (h : accTick r i = true) : edge r i = false := by
  simp only [accTick, Bool.and_eq_true, Bool.not_eq_true'] at h
  exact h.2

theorem nextElapsed_of_accTick (h : accTick r i = true) : nextElapsed p r i = satinc p.wE r.elapsed := by
  simp [nextElapsed, edge_of_accTick h, h]

/-- Only an edge or a RESET lowers the count (R82). -/
theorem le_nextElapsed (he : edge r i = false) : r.elapsed ≤ nextElapsed p r i := by
  cases ha : accTick r i with
  | true => exact nextElapsed_of_accTick ha ▸ le_satinc _ _
  | false => exact (nextElapsed_of_not_counted he ha).ge

theorem timeoutCond_iff : timeoutCond p r i = true ↔
    accTick r i = true ∧ satinc p.wE r.elapsed ≥ threshold p r.cfgSel := by
  simp only [timeoutCond, Bool.and_eq_true, decide_eq_true_eq]

theorem fire_iff : fire p r i = true ↔ timeoutCond p r i = true ∧ r.resetAsserted = false := by
  simp only [fire, Bool.and_eq_true, Bool.not_eq_true']

/-- A fire cuts power: it comes from a powered device and excludes an edge (R104, R110). -/
theorem nextPowered_of_fire (hf : fire p r i = true) : nextPowered p r i = false := by
  rw [nextPowered_of_powered (accTick_powered (timeoutCond_accTick (fire_timeoutCond hf))), hf, Bool.not_true]

/-- Only a fire or a RESET cuts power (R103). -/
theorem nextPowered_of_no_fire (hpow : r.powered = true) (hf : fire p r i = false) : nextPowered p r i = true := by
  rw [nextPowered_of_powered hpow, hf, Bool.not_false]

/-- The count the timeout condition looks at is the one the cycle leaves (R82, R83). -/
theorem timeoutCond_iff_nextElapsed : timeoutCond p r i = true ↔
    accTick r i = true ∧ threshold p r.cfgSel ≤ nextElapsed p r i := by
  rw [timeoutCond_iff]
  exact and_congr_right fun ha => by rw [nextElapsed_of_accTick ha]

end

/-- Settles O32: RESET loads 0, and the cycle step writes what R82 says. -/
theorem elapsedUpdate : Obligations.ElapsedUpdate := by
  intro s r i
  refine ⟨accTick_iff r i, _, exec_withRegs i s r, ?_⟩
  cases hi : isReset i with
  | true =>
    obtain ⟨h, sel, rfl⟩ := eq_reset_of_isReset hi
    rfl
  | false =>
    rw [regsAfter_cycle hi]
    rfl

/-- Settles O37: a high sample after a low level is an edge, and a cycle with an edge counts no tick. -/
theorem edgeWinsOverTick : Obligations.EdgeWinsOverTick := by
  intro s r hlow
  have he : edge r (inputsOf .tickH) = true := (edgeFunction r _).mpr ⟨rfl, rfl, hlow⟩
  have ha : accTick r (inputsOf .tickH) = false := accTick_of_edge he
  obtain ⟨q, hq, helapsed, hpow, -⟩ := edgeRestoresPower s r .tickH he
  exact ⟨ha, by simp [timeoutCond, ha], fire_of_edge he, q, hq, helapsed, hpow⟩

/-! ### Silent runs -/

/-- An operation after registers `r` is silent exactly when it is no edge there, and leaves the level it samples. -/
theorem silent_cons (p : Params) (r : Registers) (i : Instr) (is : List Instr) :
    silent r.lastLevel (i :: is) = (!edge r (inputsOf i) && silent (regsAfter p r i).lastLevel is) := by
  rw [regsAfter_lastLevel]
  rfl

theorem silent_append (p : Params) (is js : List Instr) (r : Registers) :
    silent r.lastLevel (is ++ js) = (silent r.lastLevel is && silent (runRegs p is r).lastLevel js) := by
  induction is generalizing r with
  | nil => rfl
  | cons i is ih => rw [List.cons_append, silent_cons p, silent_cons p, ih, runRegs, Bool.and_assoc]

/-- What every operation of a list keeps where it is no edge, the silent run of the list keeps. -/
theorem runRegs_keeps_of_silent {p : Params} {holds : Registers → Prop} {is : List Instr}
    (hstep : ∀ i ∈ is, ∀ r, edge r (inputsOf i) = false → holds r → holds (regsAfter p r i)) {r : Registers}
    (hsilent : silent r.lastLevel is = true) (h : holds r) : holds (runRegs p is r) := by
  induction is generalizing r with
  | nil => exact h
  | cons i is ih =>
    rw [silent_cons p, Bool.and_eq_true, Bool.not_eq_true'] at hsilent
    obtain ⟨he, hrest⟩ := hsilent
    exact ih (fun j hj => hstep j (List.mem_cons_of_mem i hj)) hrest (hstep i List.mem_cons_self r he h)

/-! ### A timeout that is held off -/

theorem isTick_of_tickCount_eq_zero {is : List Instr} (h : tickCount is = 0) {i : Instr} (hi : i ∈ is) :
    isTick i = false := by
  induction is with
  | nil => cases hi
  | cons k is ih =>
    obtain ⟨hk, hrest⟩ := Nat.add_eq_zero_iff.mp h
    rcases List.mem_cons.mp hi with rfl | hi
    · simpa using hk
    · exact ih hrest hi

/-- Without a tick and a RESET the device stays powered (R103). -/
theorem runRegs_powered_of_no_tick (p : Params) {is : List Instr} (hno : noReset is = true) (hK : tickCount is = 0)
    {r : Registers} (h : r.powered = true) : (runRegs p is r).powered = true := by
  refine runRegs_keeps (holds := fun q => q.powered = true) (fun i hi q hq => ?_) h
  have hf : fire p q (inputsOf i) = false :=
    fire_of_no_accTick (accTick_of_no_tick (isTick_of_tickCount_eq_zero hK hi))
  rw [regsAfter_cycle (isReset_of_noReset hno hi)]
  exact nextPowered_of_no_fire hq hf

/-- A count that has reached the threshold stays there until a RESET or an edge (R82, R84). -/
theorem runRegs_threshold_le_elapsed {p : Params} {is : List Instr} (hno : noReset is = true) {r : Registers}
    (hsilent : silent r.lastLevel is = true) (h : threshold p r.cfgSel ≤ r.elapsed) :
    threshold p (runRegs p is r).cfgSel ≤ (runRegs p is r).elapsed := by
  refine runRegs_keeps_of_silent (holds := fun q => threshold p q.cfgSel ≤ q.elapsed) (fun i hi q he hq => ?_)
    hsilent h
  rw [regsAfter_cycle (isReset_of_noReset hno hi), cycle_cfgSel, cycle_elapsed]
  exact hq.trans (le_nextElapsed he)

/-- Settles O33: the held-off cycle leaves the device powered with its count at the threshold, and the count stays
there, so that every later counted tick meets the condition. -/
theorem timeoutAndFire : Obligations.TimeoutAndFire := by
  intro s r i
  refine ⟨timeoutCond_iff, fire_iff, fun hcond hf ops hno hsilent => ?_⟩
  obtain ⟨ha, hreached⟩ := timeoutCond_iff_nextElapsed.mp hcond
  obtain ⟨hi, -, hpow, -⟩ := (accTick_iff r i).mp ha
  have hpow' : (cycle s.params r (inputsOf i)).powered = true := nextPowered_of_no_fire hpow hf
  refine ⟨runRegs s.params ops (cycle s.params r (inputsOf i)), by rw [runOps_cycle hi, runOps_withRegs],
    fun hK => runRegs_powered_of_no_tick _ hno hK hpow', fun j hj => ?_⟩
  have hcount := runRegs_threshold_le_elapsed (r := cycle s.params r (inputsOf i)) hno hsilent hreached
  have hcond' := timeoutCond_iff_nextElapsed.mpr ⟨hj, hcount.trans (le_nextElapsed (edge_of_accTick hj))⟩
  exact ⟨hcond', by rw [fire, hcond', Bool.true_and]⟩

/-! ### The accumulator while power is off -/

/-- Without an edge an unpowered device stays unpowered, through a RESET too (R77, R105). -/
theorem regsAfter_unpowered {p : Params} {r : Registers} {i : Instr} (he : edge r (inputsOf i) = false)
    (h : r.powered = false) : (regsAfter p r i).powered = false := by
  cases hi : isReset i with
  | true =>
    obtain ⟨b, sel, rfl⟩ := eq_reset_of_isReset hi
    rfl
  | false => rw [regsAfter_cycle hi, cycle_powered, nextPowered_of_unpowered h, he]

theorem runRegs_unpowered (p : Params) {is : List Instr} {r : Registers} (hsilent : silent r.lastLevel is = true)
    (h : r.powered = false) : (runRegs p is r).powered = false :=
  runRegs_keeps_of_silent (holds := fun q => q.powered = false) (fun _ _ _ => regsAfter_unpowered) hsilent h

/-- Settles O34: a fire cuts power, only an edge restores it, and no tick is counted without it. -/
theorem fireOncePerEpisode : Obligations.FireOncePerEpisode := by
  intro s r i ops hf hsilent
  obtain ⟨hi, -⟩ := (accTick_iff r i).mp (timeoutCond_accTick (fire_timeoutCond hf))
  have hcut : (cycle s.params r (inputsOf i)).powered = false := nextPowered_of_fire hf
  have hoff := runRegs_unpowered s.params (is := ops) hsilent hcut
  refine ⟨_, by rw [runOps_cycle hi, runOps_withRegs], hoff,
    fun j => fire_of_no_accTick (accTick_of_unpowered hoff), fun j he => ?_⟩
  obtain ⟨u, hu, helapsed, hpow', -⟩ := edgeRestoresPower s _ j he
  exact ⟨u, hu, hpow', helapsed⟩

/-- Settles O35: an unpowered device stays so without an edge, and a cycle that starts and ends unpowered leaves
`elapsed`. -/
theorem suspendedWhileUnpowered : Obligations.SuspendedWhileUnpowered := by
  intro s r ops hoff hno hsilent
  have hoff' := runRegs_unpowered s.params hsilent hoff
  refine ⟨_, runOps_withRegs ops s r, hoff', runRegs_elapsed_of_unpowered hno fun part rest hsplit => ?_,
    fun j => accTick_of_unpowered hoff', fun j he => ?_⟩
  · rw [hsplit, silent_append s.params, Bool.and_eq_true] at hsilent
    exact runRegs_unpowered s.params hsilent.1 hoff
  · obtain ⟨u, hu, helapsed, -⟩ := edgeRestoresPower s _ j he
    exact ⟨u, hu, helapsed⟩

/-! ### The bounds of the counters -/

/-- A device powered during a pulse has counted at most `P - 1` ticks (R89). -/
theorem elapsed_lt_pulse_of_inv {p : Params} {r : Registers} (h : r.Inv p) (hpow : r.powered = true)
    (hline : r.resetAsserted = true) : r.elapsed < pulseTicks p := by
  obtain ⟨-, -, hpulse, hboth, -, -⟩ := h
  exact Nat.lt_of_le_of_lt (hboth hpow hline) (hpulse hline)

/-- A powered device has counted fewer ticks than its threshold, or counted them during a pulse (R89). -/
theorem elapsed_le_of_powered {p : Params} {r : Registers} (h : r.Inv p) (hpow : r.powered = true) :
    r.elapsed ≤ max (threshold p r.cfgSel - 1) (pulseTicks p) := by
  cases hline : r.resetAsserted with
  | true => exact le_max_of_le_right (elapsed_lt_pulse_of_inv h hpow hline).le
  | false =>
    obtain ⟨-, -, -, -, hnormal, -⟩ := h
    exact hnormal hpow hline

theorem elapsed_le_of_inv {p : Params} {r : Registers} (h : r.Inv p) :
    r.elapsed ≤ max (threshold p r.cfgSel) (pulseTicks p + 1) := by
  cases hpow : r.powered with
  | true => exact (elapsed_le_of_powered h hpow).trans (max_le_max (Nat.sub_le _ _) (Nat.le_succ _))
  | false =>
    obtain ⟨-, -, -, -, -, hoff⟩ := h
    exact hoff hpow

/-- Settles O36: each bound is the invariant's, and a bound below the all-ones value leaves room for the increment. -/
theorem saturationNeverBinds : Obligations.SaturationNeverBinds := by
  intro s h sel ops hw
  have hinv : (runRegs s.params ops (resetRegisters h sel)).Inv s.params :=
    runRegs_inv hw ops (resetRegisters_inv hw h sel)
  refine ⟨_, runOps_reset_withRegs h sel ops s, elapsed_le_of_inv hinv, fun hfsm => ?pulse, fun j hj => ?sequencer,
    fun hfits j hj => ?accumulator⟩
  case pulse =>
    obtain ⟨hpow, hline⟩ := (fsm_eq_iff _ .restoredInReset true true rfl).mp hfsm
    exact (elapsed_lt_pulse_of_inv hinv hpow hline).le
  case sequencer =>
    obtain ⟨-, -, hpulse, -⟩ := hinv
    exact satinc_resetElapsed hw (hpulse (seqTick_resetAsserted hj))
  case accumulator =>
    have hbound := elapsed_le_of_powered hinv (accTick_powered hj)
    have hN := wellFormed_threshold hw (runRegs s.params ops (resetRegisters h sel)).cfgSel
    exact satinc_of_lt (by omega)

/-! ### A silent device in NORMAL -/

/-- While power is on and nothing else happens, the accumulator counts every tick (R81, R82). -/
theorem nextElapsed_of_silent {p : Params} {r : Registers} {i : Instr} (hi : isReset i = false)
    (hpow : r.powered = true) (he : edge r (inputsOf i) = false) (hroom : r.elapsed < 2 ^ p.wE - 1) :
    nextElapsed p r (inputsOf i) = r.elapsed + if isTick i then 1 else 0 := by
  cases hK : isTick i with
  | true => exact (nextElapsed_of_accTick ((accTick_iff r i).mpr ⟨hi, hK, hpow, he⟩)).trans (satinc_of_lt hroom)
  | false => exact nextElapsed_of_not_counted he (accTick_of_no_tick hK)

theorem fsm_normal_iff (r : Registers) : fsm r = .normal ↔ r.powered = true ∧ r.resetAsserted = false :=
  fsm_eq_iff r .normal _ _ rfl

/-- In NORMAL a cycle that leaves the count below the threshold does not fire, and the device is left in NORMAL
(R110). -/
theorem cycle_normal_of_below {p : Params} {r : Registers} {i : Inputs} (hn : fsm r = .normal)
    (hbelow : nextElapsed p r i < threshold p r.cfgSel) : fsm (cycle p r i) = .normal := by
  obtain ⟨hpow, hline⟩ := (fsm_normal_iff r).mp hn
  have hf : fire p r i = false := by
    by_contra hfire
    obtain ⟨-, hreached⟩ := timeoutCond_iff_nextElapsed.mp (fire_timeoutCond (Bool.eq_true_of_not_eq_false hfire))
    exact Nat.not_le_of_lt hbelow hreached
  obtain ⟨-, hkeep⟩ := cycle_pulse_of_not_counted (p := p) hf (seqTick_of_released hline)
  exact (fsm_normal_iff _).mpr ⟨nextPowered_of_no_fire hpow hf, hkeep.trans hline⟩

/-- A fire leaves FAILED with a pulse count of 0 (R110, R131). -/
theorem cycle_of_fire {p : Params} {r : Registers} {i : Inputs} (hf : fire p r i = true) :
    fsm (cycle p r i) = .failed ∧ (cycle p r i).resetElapsed = 0 :=
  ⟨(fsm_eq_iff _ .failed false true rfl).mpr ⟨nextPowered_of_fire hf, if_pos hf⟩, if_pos hf⟩

/-- A silent run of too few ticks to reach the threshold counts them all and stays in NORMAL (R83, R110). -/
theorem runRegs_normal_of_below {p : Params} (hw : p.wellFormed = true) {is : List Instr} (hno : noReset is = true)
    {r : Registers} (hsilent : silent r.lastLevel is = true) (hn : fsm r = .normal)
    (hbelow : r.elapsed + tickCount is < threshold p r.cfgSel) :
    fsm (runRegs p is r) = .normal ∧ (runRegs p is r).elapsed = r.elapsed + tickCount is := by
  induction is generalizing r with
  | nil => exact ⟨hn, rfl⟩
  | cons i is ih =>
    have hi : isReset i = false := isReset_of_noReset hno List.mem_cons_self
    have hrest : noReset is = true := (Bool.and_eq_true_iff.mp hno).2
    rw [silent_cons p, Bool.and_eq_true, Bool.not_eq_true', regsAfter_cycle hi] at hsilent
    obtain ⟨he, hsilent⟩ := hsilent
    obtain ⟨hpow, -⟩ := (fsm_normal_iff r).mp hn
    have hN := (wellFormed_threshold hw r.cfgSel).2
    have hel : nextElapsed p r (inputsOf i) = r.elapsed + if isTick i then 1 else 0 :=
      nextElapsed_of_silent hi hpow he (by omega)
    have hsum : nextElapsed p r (inputsOf i) + tickCount is = r.elapsed + tickCount (i :: is) := by
      rw [hel, tickCount, Nat.add_assoc]
    rw [runRegs, regsAfter_cycle hi, ← hsum]
    exact ih hrest hsilent (cycle_normal_of_below hn (by omega)) (by rwa [cycle_elapsed, hsum])

/-- Settles O38: the ticks before are all counted, so the `N`-th brings the count to the threshold with the reset line
released. -/
theorem silentDeviceTimesOutAtTheThreshold : Obligations.SilentDeviceTimesOutAtTheThreshold := by
  intro s r ops j hw hn hzero hno hsilent hbelow
  rw [noReset_append, Bool.and_eq_true] at hno
  rw [silent_append s.params, Bool.and_eq_true] at hsilent
  obtain ⟨hnoOps, hnoJ⟩ := hno
  obtain ⟨hsilentOps, hsilentJ⟩ := hsilent
  obtain ⟨hn', hel⟩ := runRegs_normal_of_below hw hnoOps hsilentOps hn (by omega)
  have hsel := runRegs_cfgSel s.params hnoOps r
  rw [hzero, Nat.zero_add] at hel
  refine ⟨_, runOps_withRegs ops s r, hn', hel, fun hK hlast => ?_⟩
  generalize runRegs s.params ops r = q at *
  have hj : isReset j = false := isReset_of_noReset hnoJ List.mem_cons_self
  rw [silent_cons s.params, Bool.and_eq_true, Bool.not_eq_true'] at hsilentJ
  obtain ⟨hpow, hline⟩ := (fsm_normal_iff q).mp hn'
  have hN := (wellFormed_threshold hw r.cfgSel).2
  have hcount : nextElapsed s.params q (inputsOf j) = threshold s.params r.cfgSel := by
    rw [nextElapsed_of_silent hj hpow hsilentJ.1 (by omega), hel, hK, ← hlast, if_pos rfl]
  have hcond : timeoutCond s.params q (inputsOf j) = true :=
    timeoutCond_iff_nextElapsed.mpr
      ⟨(accTick_iff q j).mpr ⟨hj, hK, hpow, hsilentJ.1⟩, hsel.symm ▸ hcount.ge⟩
  obtain ⟨hfailed, hpulse⟩ := cycle_of_fire (fire_iff.mpr ⟨hcond, hline⟩)
  exact ⟨_, exec_cycle hj s q, hfailed, hpulse, hcount⟩

end Sys2Proof.Machine

/-! The statements of 42_reset_sequencer.md: which ticks are counted and what becomes of `reset_elapsed`, what starts a
pulse and what ends it, that its course depends on the ticks alone, and how long it lasts. -/

namespace Sys2Proof.Machine

/-! ### The sequencer's events -/

/-- The sequencer counts the ticks outside reset while the reset line is asserted (R93). -/
theorem seqTick_iff (r : Registers) (i : Instr) :
    seqTick r (inputsOf i) = true ↔ isReset i = false ∧ isTick i = true ∧ r.resetAsserted = true := by
  simp only [seqTick, isReset, isTick, Bool.and_eq_true, Bool.not_eq_true', and_assoc]

theorem release_iff {p : Params} {r : Registers} {i : Inputs} : release p r i = true ↔
    seqTick r i = true ∧ satinc p.wR r.resetElapsed ≥ pulseTicks p := by
  simp only [release, Bool.and_eq_true, decide_eq_true_eq]

/-- During a pulse every tick outside reset is counted (R93, R97). -/
theorem seqTick_of_pulse {r : Registers} {i : Instr} (hi : isReset i = false) (hline : r.resetAsserted = true) :
    seqTick r (inputsOf i) = isTick i := by
  rw [Bool.eq_iff_iff, seqTick_iff]
  simp only [hi, hline, true_and, and_true]

/-- Settles O41: a fire needs the reset line released and a counted tick needs it asserted; RESET loads 0, and the cycle
step writes what R95 says. -/
theorem resetElapsedUpdate : Obligations.ResetElapsedUpdate := by
  intro s r i
  have hexclusive : ¬ (fire s.params r (inputsOf i) = true ∧ seqTick r (inputsOf i) = true) := fun ⟨hf, ht⟩ =>
    Bool.false_ne_true ((fire_resetAsserted hf).symm.trans (seqTick_resetAsserted ht))
  refine ⟨seqTick_iff r i, hexclusive, _, exec_withRegs i s r, ?_⟩
  cases hi : isReset i with
  | true =>
    obtain ⟨h, sel, rfl⟩ := eq_reset_of_isReset hi
    rfl
  | false =>
    rw [regsAfter_cycle hi]
    rfl

/-! ### The end of a pulse and its start -/

section
variable {p : Params} {r : Registers} {i : Inputs}

/-- In a cycle that does not fire, an edge is the only change of power (R94, R103). -/
theorem nextPowered_eq_edge_or (hf : fire p r i = false) : nextPowered p r i = (edge r i || r.powered) := by
  cases hpow : r.powered with
  | true => rw [nextPowered_of_no_fire hpow hf, Bool.or_true]
  | false => rw [nextPowered_of_unpowered hpow, Bool.or_false]

/-- With the reset line released, a cycle asserts it exactly when it fires (R96). -/
theorem nextResetAsserted_of_released (hline : r.resetAsserted = false) : nextResetAsserted p r i = fire p r i := by
  cases hf : fire p r i with
  | true => exact if_pos hf
  | false =>
    rw [nextResetAsserted_of_no_fire_no_release hf (release_of_no_seqTick (seqTick_of_released hline)), hline]

end

/-- Settles O42: a release finds the reset line asserted, so its cycle cannot fire. -/
theorem releaseEndsThePulse : Obligations.ReleaseEndsThePulse := by
  intro s r i
  refine ⟨release_iff, fun hrel => ?_⟩
  obtain ⟨hi, -, hline⟩ := (seqTick_iff r i).mp (release_seqTick hrel)
  have hf : fire s.params r (inputsOf i) = false := fire_of_asserted hline
  exact ⟨_, exec_cycle hi s r, (nextResetAsserted_of_no_fire hf).trans (if_pos hrel), nextPowered_eq_edge_or hf⟩

/-- Settles O43: RESET loads an asserted line and a count of 0, and a cycle asserts a released line by a fire, which
writes the count 0. -/
theorem pulseStartsOnlyByFireOrReset : Obligations.PulseStartsOnlyByFireOrReset := by
  intro s r i
  refine ⟨_, exec_withRegs i s r, ?_⟩
  cases hi : isReset i with
  | true =>
    obtain ⟨h, sel, rfl⟩ := eq_reset_of_isReset hi
    exact ⟨fun _ => ⟨fun _ => .inl rfl, fun _ => rfl⟩, fun _ => ⟨rfl, rfl⟩⟩
  | false =>
    simp only [Bool.false_eq_true, false_or, regsAfter_cycle hi, cycle_resetAsserted, cycle_resetElapsed]
    exact ⟨fun hline => by rw [nextResetAsserted_of_released hline], fun hf => ⟨if_pos hf, if_pos hf⟩⟩

/-! ### The course of a pulse -/

/-- What a cycle makes of the pulse count during a pulse: a fire is held off, and each tick is counted (R84, R95). -/
theorem nextResetElapsed_of_pulse {p : Params} {r : Registers} {i : Instr} (hi : isReset i = false)
    (hline : r.resetAsserted = true) :
    nextResetElapsed p r (inputsOf i) = if isTick i then satinc p.wR r.resetElapsed else r.resetElapsed := by
  rw [nextResetElapsed_of_no_fire (fire_of_asserted hline), seqTick_of_pulse hi hline]

/-- What a cycle makes of the reset line during a pulse: it stays asserted but for a release (R94, R103). -/
theorem nextResetAsserted_of_pulse {p : Params} {r : Registers} {i : Instr} (hi : isReset i = false)
    (hline : r.resetAsserted = true) :
    nextResetAsserted p r (inputsOf i) = !(isTick i && decide (satinc p.wR r.resetElapsed ≥ pulseTicks p)) := by
  rw [nextResetAsserted_of_no_fire (fire_of_asserted hline), release, seqTick_of_pulse hi hline, hline]
  cases isTick i && decide (satinc p.wR r.resetElapsed ≥ pulseTicks p) <;> rfl

/-- Settles O44: during a pulse both writes are functions of the tick, the pulse count and the record. -/
theorem sequencerIndependentOfPower : Obligations.SequencerIndependentOfPower := by
  intro s s' r r' i i' hp hline hline' hcount hi hi' hK
  refine ⟨_, _, exec_cycle hi s r, exec_cycle hi' s' r', ?_, ?_⟩
  · rw [cycle_resetAsserted, cycle_resetAsserted, nextResetAsserted_of_pulse hi hline,
      nextResetAsserted_of_pulse hi' hline', hp, hcount, hK]
  · rw [cycle_resetElapsed, cycle_resetElapsed, nextResetElapsed_of_pulse hi hline,
      nextResetElapsed_of_pulse hi' hline', hp, hcount, hK]

/-- Below `P` the pulse count is the number of ticks, without saturation, and the cycle keeps the reset line asserted
exactly while the count it leaves is below `P` (R89, R98). -/
theorem cycle_of_pulse {p : Params} (hw : p.wellFormed = true) {r : Registers} {i : Instr} (hi : isReset i = false)
    (hline : r.resetAsserted = true) (hbelow : r.resetElapsed < pulseTicks p) :
    (cycle p r (inputsOf i)).resetElapsed = (r.resetElapsed + if isTick i then 1 else 0) ∧
    (cycle p r (inputsOf i)).resetAsserted = decide ((cycle p r (inputsOf i)).resetElapsed < pulseTicks p) := by
  rw [cycle_resetElapsed, cycle_resetAsserted, nextResetElapsed_of_pulse hi hline, nextResetAsserted_of_pulse hi hline,
    satinc_resetElapsed hw hbelow]
  cases isTick i with
  | true => simp [← decide_not]
  | false => simpa using hbelow

/-- A run of too few ticks to end the pulse counts them all and leaves the reset line asserted (R98). -/
theorem runRegs_of_pulse {p : Params} (hw : p.wellFormed = true) {is : List Instr} (hno : noReset is = true)
    {r : Registers} (hline : r.resetAsserted = true) (hbelow : r.resetElapsed + tickCount is < pulseTicks p) :
    (runRegs p is r).resetAsserted = true ∧ (runRegs p is r).resetElapsed = r.resetElapsed + tickCount is := by
  induction is generalizing r with
  | nil => exact ⟨hline, rfl⟩
  | cons i is ih =>
    have hi : isReset i = false := isReset_of_noReset hno List.mem_cons_self
    have hrest : noReset is = true := (Bool.and_eq_true_iff.mp hno).2
    obtain ⟨hcount, hline'⟩ := cycle_of_pulse hw hi hline (by omega)
    have hsum : (cycle p r (inputsOf i)).resetElapsed + tickCount is = r.resetElapsed + tickCount (i :: is) := by
      rw [hcount, tickCount, Nat.add_assoc]
    rw [runRegs, regsAfter_cycle hi, ← hsum]
    exact ih hrest (hline'.trans (decide_eq_true (by omega))) (hsum ▸ hbelow)

/-- Settles O45: the ticks before are all counted, so the `P`-th brings the count to `P`. -/
theorem pulseLastsExactlyItsWidth : Obligations.PulseLastsExactlyItsWidth := by
  intro s r ops j hw hline hzero hno hbelow
  rw [noReset_append, Bool.and_eq_true] at hno
  obtain ⟨hnoOps, hnoJ⟩ := hno
  have hj : isReset j = false := isReset_of_noReset hnoJ List.mem_cons_self
  obtain ⟨hline', hcount⟩ := runRegs_of_pulse hw hnoOps hline (by omega)
  rw [hzero, Nat.zero_add] at hcount
  refine ⟨_, runOps_withRegs ops s r, hline', hcount, fun hK hlast => ?_⟩
  obtain ⟨hlastCount, hreleased⟩ := cycle_of_pulse hw hj hline' (hcount ▸ hbelow)
  rw [hK, if_pos rfl, hcount, hlast] at hlastCount
  exact ⟨_, exec_cycle hj s _, hreleased.trans (decide_eq_false (by omega)), hlastCount⟩

end Sys2Proof.Machine

/-! The statements of 43_supervisor_fsm.md: what each of the five operations writes, the transitions of the supervisor
state, how a failure begins and how its episode ends, and when no failure can occur. -/

namespace Sys2Proof.Machine

/-! ### The events of one cycle: outside reset, and where they exclude each other -/

section
variable {i : Instr} (hi : isReset i = false) (r : Registers)
include hi

theorem accTick_of_not_reset : accTick r (inputsOf i) = (isTick i && r.powered && !edge r (inputsOf i)) := by
  have hR : (inputsOf i).R = false := hi
  rw [accTick, hR, Bool.not_false, Bool.true_and, isTick]

theorem seqTick_of_not_reset : seqTick r (inputsOf i) = (isTick i && r.resetAsserted) := by
  have hR : (inputsOf i).R = false := hi
  rw [seqTick, hR, Bool.not_false, Bool.true_and, isTick]

end

section
variable {p : Params} {r : Registers} {i : Inputs}

theorem release_of_released (h : r.resetAsserted = false) : release p r i = false :=
  release_of_no_seqTick (seqTick_of_released h)

/-- No signal is 1 in a cycle without edge and counted tick (R81, R83, R84, R93, R94). -/
theorem events_of_not_counted (ha : accTick r i = false) (ht : seqTick r i = false) :
    events p r i = ⟨edge r i, false, false, false, false, false⟩ := by
  rw [events, ha, ht, fire_of_no_accTick ha, release_of_no_seqTick ht, timeoutCond, ha, Bool.false_and]

/-- In a RESET cycle no signal is 1 (R105). -/
theorem events_of_reset (h : i.R = true) : events p r i = ⟨false, false, false, false, false, false⟩ := by
  rw [events_of_not_counted (by simp [accTick, h]) (by simp [seqTick, h]), edge_of_reset h]

/-- In a cycle without a tick the edge is the only signal (R106, R107). -/
theorem events_of_no_tick (h : i.K = false) : events p r i = ⟨edge r i, false, false, false, false, false⟩ :=
  events_of_not_counted (accTick_of_no_tick h) (seqTick_of_no_tick h)

end

/-- Settles O48: an edge holds the tick back that a fire needs, and a fire needs the reset line released, which a counted
pulse tick finds asserted. -/
theorem writesNeverConflict : Obligations.WritesNeverConflict := by
  intro p r i
  refine ⟨fun ⟨he, hf⟩ => ?edge, fun ⟨hf, hrel⟩ => ?release, fun ⟨hf, ht⟩ => ?tick⟩
  case edge => exact Bool.false_ne_true ((fire_of_edge he).symm.trans hf)
  case release => exact Bool.false_ne_true ((release_of_released (fire_resetAsserted hf)).symm.trans hrel)
  case tick => exact Bool.false_ne_true ((seqTick_of_released (fire_resetAsserted hf)).symm.trans ht)

/-! ### The operations -/

/-- Settles O19: with the reset bit 0 the signals are the rule's, and the cycle step writes by them. -/
theorem cycleStep : Obligations.CycleStep := by
  intro s r i hmem K H e a c f q l
  have hi : isReset i = false := by
    simp only [List.mem_cons, List.not_mem_nil, or_false] at hmem
    obtain rfl | rfl | rfl | rfl := hmem <;> rfl
  have he : edge r (inputsOf i) = e := edge_of_not_reset hi r
  have ha : accTick r (inputsOf i) = a := by rw [accTick_of_not_reset hi, he]
  have hc : timeoutCond s.params r (inputsOf i) = c := by rw [timeoutCond, ha]
  have hf : fire s.params r (inputsOf i) = f := by rw [fire, hc]
  have hq : seqTick r (inputsOf i) = q := seqTick_of_not_reset hi r
  have hl : release s.params r (inputsOf i) = l := by rw [release, hq]
  refine ⟨?_, by rw [events, he, ha, hc, hf, hq, hl]⟩
  rw [exec_cycle hi, cycle, nextElapsed, nextResetElapsed, nextPowered, nextResetAsserted, he, ha, hf, hq, hl]
  rfl

/-- Settles O14: RESET loads its registers from every state, its word by the values of the ignored bit. -/
theorem resetResult : Obligations.ResetResult := by
  intro s h sel
  refine ⟨rfl, fun r => events_of_reset rfl, ?state, fun k => ?word, fun _ _ => rfl⟩
  case state =>
    rintro _ _ ⟨⟩ ⟨⟩
    exact ⟨rfl, rfl⟩
  case word => revert k h sel; decide

/-- A cycle without a tick writes the level, and in its edge form clears the count and restores power (R106, R107). -/
theorem cycle_of_no_tick {p : Params} {r : Registers} {i : Inputs} (hK : i.K = false) :
    cycle p r i = if edge r i then { r with lastLevel := i.H, elapsed := 0, powered := true }
      else { r with lastLevel := i.H } := by
  obtain ⟨hcount, hline⟩ := cycle_pulse_of_no_tick (p := p) (r := r) hK
  rw [cycle_resetElapsed] at hcount
  rw [cycle_resetAsserted] at hline
  rw [cycle, hcount, hline]
  cases he : edge r i with
  | true => rw [nextElapsed_of_edge he, nextPowered_of_edge he]; rfl
  | false =>
    have ha : accTick r i = false := accTick_of_no_tick hK
    rw [nextElapsed_of_not_counted he ha, nextPowered_of_no_edge_no_fire he (fire_of_no_accTick ha)]; rfl

/-- Settles O15: a low level is no edge, and it arms the detector for the next high one. -/
theorem idleLResult : Obligations.IdleLResult := by
  intro s r
  have hexec : exec .idleL (s.withRegs r) = .next (s.withRegs { r with lastLevel := false }) := by
    rw [exec_cycle rfl, cycle_of_no_tick rfl, edge_of_low rfl]; rfl
  have hevents : events s.params r (inputsOf .idleL) = ⟨false, false, false, false, false, false⟩ := by
    rw [events_of_no_tick rfl, edge_of_low rfl]
  refine ⟨hexec, hevents, fun q hq => ?_, exec_of_no_regs rfl, by decide⟩
  rw [hexec, Host.Outcome.next.injEq, State.withRegs_inj] at hq
  subst hq
  exact ⟨rfl, rfl, rfl⟩

/-- Settles O16: a high level is an edge exactly when the level before is low. -/
theorem idleHResult : Obligations.IdleHResult := by
  intro s r
  have he : edge r (inputsOf .idleH) = !r.lastLevel := edge_of_not_reset rfl r
  refine ⟨?_, by rw [events_of_no_tick rfl, he], exec_of_no_regs rfl, by decide⟩
  rw [exec_cycle rfl, cycle_of_no_tick rfl, he]
  cases r.lastLevel <;> rfl

section
variable {p : Params} {r : Registers} {i : Instr} (hi : isReset i = false) (hK : isTick i = true)
include hi hK

/-- When the tick of a cycle fires (R81, R83, R84). -/
theorem fire_tick_iff : fire p r (inputsOf i) = true ↔
    edge r (inputsOf i) = false ∧ r.powered = true ∧ satinc p.wE r.elapsed ≥ threshold p r.cfgSel ∧
      r.resetAsserted = false := by
  simp only [fire_iff, timeoutCond_iff, accTick_iff, hi, hK, true_and]
  tauto

/-- When the tick of a cycle releases the reset line (R93, R94). -/
theorem release_tick_iff : release p r (inputsOf i) = true ↔
    r.resetAsserted = true ∧ satinc p.wR r.resetElapsed ≥ pulseTicks p := by
  simp only [release_iff, seqTick_iff, hi, hK, true_and]

/-- What a cycle with a tick writes: power on is all the accumulator needs to count it, and the reset line asserted all
the sequencer needs (R108, R109). -/
theorem cycle_of_tick : cycle p r (inputsOf i) =
    { cfgSel := r.cfgSel
      lastLevel := levelIn i
      elapsed := if edge r (inputsOf i) then 0 else if r.powered then satinc p.wE r.elapsed else r.elapsed
      resetElapsed :=
        if fire p r (inputsOf i) then 0 else if r.resetAsserted then satinc p.wR r.resetElapsed else r.resetElapsed
      powered := if edge r (inputsOf i) then true else if fire p r (inputsOf i) then false else r.powered
      resetAsserted :=
        if fire p r (inputsOf i) then true else if release p r (inputsOf i) then false else r.resetAsserted } := by
  have helapsed : nextElapsed p r (inputsOf i) =
      if edge r (inputsOf i) then 0 else if r.powered then satinc p.wE r.elapsed else r.elapsed := by
    rw [nextElapsed, accTick_of_not_reset hi, hK]
    cases edge r (inputsOf i) <;> simp
  have hcount : nextResetElapsed p r (inputsOf i) =
      if fire p r (inputsOf i) then 0 else if r.resetAsserted then satinc p.wR r.resetElapsed else r.resetElapsed := by
    rw [nextResetElapsed, seqTick_of_not_reset hi, hK, Bool.true_and]
  rw [cycle, helapsed, hcount]
  rfl

end

/-- Settles O17: a low level is no edge, so the tick of a powered device is counted. -/
theorem tickLResult : Obligations.TickLResult := by
  intro s r e q fires releases
  have hedge : edge r (inputsOf .tickL) = false := edge_of_low rfl
  have hfires : fire s.params r (inputsOf .tickL) = true ↔ fires := by
    rw [fire_tick_iff rfl rfl]; exact and_iff_right hedge
  have hreleases : release s.params r (inputsOf .tickL) = true ↔ releases := release_tick_iff rfl rfl
  refine ⟨?_, hfires, hreleases, hedge, exec_of_no_regs rfl, by decide⟩
  rw [exec_cycle rfl, cycle_of_tick rfl rfl]
  simp only [hedge, hfires, hreleases]
  rfl

/-- Settles O18: a high level is an edge exactly when the level before is low. -/
theorem tickHResult : Obligations.TickHResult := by
  intro s r e q edges fires releases
  have hedges : edge r (inputsOf .tickH) = true ↔ edges := by
    rw [edgeFunction]; exact ⟨fun ⟨_, _, hlow⟩ => hlow, fun hlow => ⟨rfl, rfl, hlow⟩⟩
  have hfires : fire s.params r (inputsOf .tickH) = true ↔ fires := by
    rw [fire_tick_iff rfl rfl, ← Bool.not_eq_true, hedges]
  have hreleases : release s.params r (inputsOf .tickH) = true ↔ releases := release_tick_iff rfl rfl
  refine ⟨?_, hedges, hfires, hreleases, exec_of_no_regs rfl, by decide⟩
  rw [exec_cycle rfl, cycle_of_tick rfl rfl]
  simp only [hedges, hfires, hreleases]
  rfl

/-- Settles O24: RESET's registers do not depend on the state, and the run is a function of them and the record. -/
theorem runsAreDeterminedAfterReset : Obligations.RunsAreDeterminedAfterReset := by
  intro p h sel ops
  refine ⟨runRegs p ops (resetRegisters h sel), ?_⟩
  rintro s rfl
  exact runOps_reset_withRegs h sel ops s

/-! ### The supervisor state -/

theorem fsm_failed_iff (r : Registers) : fsm r = .failed ↔ r.powered = false ∧ r.resetAsserted = true :=
  fsm_eq_iff r .failed _ _ rfl

theorem fsm_recovering_iff (r : Registers) : fsm r = .recovering ↔ r.powered = false ∧ r.resetAsserted = false :=
  fsm_eq_iff r .recovering _ _ rfl

theorem fsm_restoredInReset_iff (r : Registers) :
    fsm r = .restoredInReset ↔ r.powered = true ∧ r.resetAsserted = true :=
  fsm_eq_iff r .restoredInReset _ _ rfl

section
variable {p : Params} {r : Registers} {i : Inputs}

theorem fire_of_unpowered (h : r.powered = false) : fire p r i = false :=
  fire_of_no_accTick (accTick_of_unpowered h)

theorem nextResetAsserted_of_asserted (hline : r.resetAsserted = true) : nextResetAsserted p r i = !release p r i := by
  rw [nextResetAsserted_of_no_fire (fire_of_asserted hline), hline]
  cases release p r i <;> rfl

/-! The rows of the transition table (R101), one state each. -/

theorem fsm_cycle_of_normal (h : fsm r = .normal) :
    fsm (cycle p r i) = if fire p r i then .failed else .normal := by
  obtain ⟨hpow, hline⟩ := (fsm_normal_iff r).mp h
  rw [fsm, cycle_powered, cycle_resetAsserted, nextPowered_of_powered hpow, nextResetAsserted_of_released hline]
  cases fire p r i <;> rfl

theorem fsm_cycle_of_failed (h : fsm r = .failed) :
    fsm (cycle p r i) =
      if edge r i then (if release p r i then .normal else .restoredInReset)
      else (if release p r i then .recovering else .failed) := by
  obtain ⟨hpow, hline⟩ := (fsm_failed_iff r).mp h
  rw [fsm, cycle_powered, cycle_resetAsserted, nextPowered_of_unpowered hpow, nextResetAsserted_of_asserted hline]
  cases edge r i <;> cases release p r i <;> rfl

theorem fsm_cycle_of_restoredInReset (h : fsm r = .restoredInReset) :
    fsm (cycle p r i) = if release p r i then .normal else .restoredInReset := by
  obtain ⟨hpow, hline⟩ := (fsm_restoredInReset_iff r).mp h
  rw [fsm, cycle_powered, cycle_resetAsserted, nextPowered_of_no_fire hpow (fire_of_asserted hline),
    nextResetAsserted_of_asserted hline]
  cases release p r i <;> rfl

theorem fsm_cycle_of_recovering (h : fsm r = .recovering) :
    fsm (cycle p r i) = if edge r i then .normal else .recovering := by
  obtain ⟨hpow, hline⟩ := (fsm_recovering_iff r).mp h
  rw [fsm, cycle_powered, cycle_resetAsserted, nextPowered_of_unpowered hpow, nextResetAsserted_of_released hline,
    fire_of_unpowered hpow]
  cases edge r i <;> rfl

end

/-- Settles O47: each state's row of the table, and the events its two bits exclude. -/
theorem transitionTable : Obligations.TransitionTable := by
  intro s r i
  dsimp only [events]
  refine ⟨fun h => ?normal, fun h => ?failed, fun h => ?restored, fun h => ?recovering,
    _, exec_withRegs i s r, fun hi => ?reset, fun hi => ?cycle⟩
  case normal => exact release_of_released ((fsm_normal_iff r).mp h).2
  case failed => exact fire_of_asserted ((fsm_failed_iff r).mp h).2
  case restored => exact fire_of_asserted ((fsm_restoredInReset_iff r).mp h).2
  case recovering =>
    obtain ⟨hpow, hline⟩ := (fsm_recovering_iff r).mp h
    exact ⟨fire_of_unpowered hpow, release_of_released hline⟩
  case reset =>
    obtain ⟨h, sel, rfl⟩ := eq_reset_of_isReset hi
    rfl
  case cycle =>
    rw [regsAfter_cycle hi]
    cases h : fsm r with
    | normal => simp +contextual [fsm_cycle_of_normal h]
    | failed => simp +contextual [fsm_cycle_of_failed h]
    | recovering => simp +contextual [fsm_cycle_of_recovering h]
    | restoredInReset => simp +contextual [fsm_cycle_of_restoredInReset h]

/-- Settles O51: each state's row of the table names at most these successors. -/
theorem impossibleTransitions : Obligations.ImpossibleTransitions := by
  intro s r i
  refine ⟨_, exec_withRegs i s r, ?_⟩
  cases hi : isReset i with
  | true => simp
  | false =>
    rw [regsAfter_cycle hi]
    cases h : fsm r with
    | normal => cases hf : fire s.params r (inputsOf i) <;> simp [fsm_cycle_of_normal h, hf]
    | failed => simp +contextual [fsm_cycle_of_failed h]
    | recovering => cases he : edge r (inputsOf i) <;> simp [fsm_cycle_of_recovering h, he]
    | restoredInReset =>
      cases hrel : release s.params r (inputsOf i) <;> simp [fsm_cycle_of_restoredInReset h, hrel]

/-! ### A failure and the end of its episode -/

/-- Settles O49: a fire is a counted tick, so the cycle increments the count, cuts power and starts a pulse. -/
theorem fireEntersFailed : Obligations.FireEntersFailed := by
  intro s r i hn hf
  obtain ⟨hpow, hline⟩ := (fsm_normal_iff r).mp hn
  have ha : accTick r (inputsOf i) = true := timeoutCond_accTick (fire_timeoutCond hf)
  obtain ⟨hi, -⟩ := (accTick_iff r i).mp ha
  refine ⟨by rw [outputs, hpow, hline]; rfl, _, exec_cycle hi s r, ?_, (cycle_of_fire hf).1, ?_⟩
  · rw [cycle, nextElapsed_of_accTick ha, nextPowered_of_fire hf, nextResetElapsed, nextResetAsserted, hf]; rfl
  · rw [outputs, cycle_powered, cycle_resetAsserted, nextPowered_of_fire hf, nextResetAsserted, hf]; rfl

/-- The last tick of a pulse releases the reset line (R94, R98). -/
theorem release_of_last_tick {p : Params} (hw : p.wellFormed = true) {r : Registers} {i : Instr}
    (hi : isReset i = false) (hK : isTick i = true) (hline : r.resetAsserted = true)
    (hlast : r.resetElapsed + 1 = pulseTicks p) : release p r (inputsOf i) = true :=
  (release_tick_iff hi hK).mpr ⟨hline, by rw [satinc_resetElapsed hw hlast.le]; exact hlast.ge⟩

/-- Settles O50: the rows of the table name the state that is entered, its two bits the registers, and an edge clears the
count. -/
theorem episodeTransitions : Obligations.EpisodeTransitions := by
  intro s r i hi
  dsimp only [events]
  refine ⟨_, exec_cycle hi s r, fun h hrel he => ?released, fun h he hrel => ?restored,
    fun hw h hT hlow hlast => ?both, fun h hrel => ?restoredReleased, fun h he => ?recovered⟩
  case released =>
    have hq : fsm (cycle s.params r (inputsOf i)) = .recovering := by simp [fsm_cycle_of_failed h, he, hrel]
    obtain ⟨hpow, hline⟩ := (fsm_recovering_iff _).mp hq
    exact ⟨hline, hpow, hq⟩
  case restored =>
    have hq : fsm (cycle s.params r (inputsOf i)) = .restoredInReset := by simp [fsm_cycle_of_failed h, he, hrel]
    obtain ⟨hpow, hline⟩ := (fsm_restoredInReset_iff _).mp hq
    exact ⟨hpow, nextElapsed_of_edge he, hline, hq⟩
  case both =>
    subst hT
    have he : edge r (inputsOf .tickH) = true := (edgeFunction r _).mpr ⟨rfl, rfl, hlow⟩
    have hrel : release s.params r (inputsOf .tickH) = true :=
      release_of_last_tick hw rfl rfl ((fsm_failed_iff r).mp h).2 hlast
    have hq : fsm (cycle s.params r (inputsOf .tickH)) = .normal := by simp [fsm_cycle_of_failed h, he, hrel]
    obtain ⟨hpow, hline⟩ := (fsm_normal_iff _).mp hq
    exact ⟨hpow, hline, hq⟩
  case restoredReleased =>
    have hq : fsm (cycle s.params r (inputsOf i)) = .normal := by simp [fsm_cycle_of_restoredInReset h, hrel]
    obtain ⟨hpow, hline⟩ := (fsm_normal_iff _).mp hq
    exact ⟨hline, hpow, hq, nextElapsed_of_edge⟩
  case recovered =>
    have hq : fsm (cycle s.params r (inputsOf i)) = .normal := by simp [fsm_cycle_of_recovering h, he]
    obtain ⟨hpow, hline⟩ := (fsm_normal_iff _).mp hq
    exact ⟨hpow, nextElapsed_of_edge he, hline, hq⟩

/-! ### When no failure can occur -/

/-- Under a separated record a device powered during a pulse has too few ticks behind it to time out (R119). -/
theorem timeoutCond_of_asserted {p : Params} (hsep : p.separated = true) {r : Registers} (hinv : r.Inv p)
    (hline : r.resetAsserted = true) (i : Inputs) : timeoutCond p r i = false := by
  by_contra hcond
  obtain ⟨ha, hreached⟩ := timeoutCond_iff.mp (Bool.eq_true_of_not_eq_false hcond)
  have hcount := elapsed_lt_pulse_of_inv hinv (accTick_powered ha) hline
  have hsucc := satinc_le_succ p.wE r.elapsed
  have hgap := separated_threshold hsep r.cfgSel
  omega

/-- Settles O54: the registers the run leaves are within their invariant. -/
theorem separationLemma : Obligations.SeparationLemma := by
  intro s h sel ops hw hsep
  have hinv : (runRegs s.params ops (resetRegisters h sel)).Inv s.params :=
    runRegs_inv hw ops (resetRegisters_inv hw h sel)
  refine ⟨_, runOps_reset_withRegs h sel ops s, fun j => ⟨fun hline => timeoutCond_of_asserted hsep hinv hline _, ?_⟩⟩
  generalize runRegs s.params ops (resetRegisters h sel) = r at *
  cases hline : r.resetAsserted with
  | true => rw [fire, timeoutCond_of_asserted hsep hinv hline, Bool.false_and]
  | false => rw [fire, hline, Bool.not_false, Bool.and_true]

/-- What the heartbeats of a sequence in time leave after its first operation, from registers whose count is at most that
of the ticks since the last transition: no fire, and the same for the rest of the sequence (R120). -/
theorem cycle_of_inTime {p : Params} {r : Registers} {i : Instr} {is : List Instr} {count : Nat}
    (hcount : r.elapsed ≤ count) (h : inTime (threshold p r.cfgSel) r.lastLevel count (i :: is) = true) :
    isReset i = false ∧ fire p r (inputsOf i) = false ∧
      ∃ count', nextElapsed p r (inputsOf i) ≤ count' ∧ inTime (threshold p r.cfgSel) (levelIn i) count' is = true := by
  rw [inTime, Bool.and_eq_true, Bool.not_eq_true'] at h
  obtain ⟨hi, h⟩ := h
  refine ⟨hi, ?_⟩
  rw [← edge_of_not_reset hi] at h
  cases he : edge r (inputsOf i) with
  | true =>
    have hhigh : levelIn i = true := ((edgeFunction r _).mp he).2.1
    rw [he, if_pos rfl] at h
    exact ⟨fire_of_edge he, 0, (nextElapsed_of_edge he).le, hhigh ▸ h⟩
  | false =>
    rw [he, if_neg Bool.false_ne_true, Bool.and_eq_true, decide_eq_true_eq] at h
    obtain ⟨hbelow, hrest⟩ := h
    have hnext : nextElapsed p r (inputsOf i) ≤ count + if isTick i then 1 else 0 := by
      cases ha : accTick r (inputsOf i) with
      | true =>
        obtain ⟨-, hK, -⟩ := (accTick_iff r i).mp ha
        rw [nextElapsed_of_accTick ha, hK, if_pos rfl]
        exact (satinc_le_succ _ _).trans (Nat.succ_le_succ hcount)
      | false => exact (nextElapsed_of_not_counted he ha).trans_le (hcount.trans (Nat.le_add_right _ _))
    refine ⟨?_, _, hnext, hrest⟩
    by_contra hf
    obtain ⟨-, hreached⟩ := timeoutCond_iff_nextElapsed.mp (fire_timeoutCond (Bool.eq_true_of_not_eq_false hf))
    omega

/-- A run whose heartbeats come in time keeps the device powered, and what follows is still in time (R120). -/
theorem runRegs_of_inTime {p : Params} {is js : List Instr} {r : Registers} {count : Nat} (hpow : r.powered = true)
    (hcount : r.elapsed ≤ count) (h : inTime (threshold p r.cfgSel) r.lastLevel count (is ++ js) = true) :
    (runRegs p is r).powered = true ∧ ∃ count', (runRegs p is r).elapsed ≤ count' ∧
      inTime (threshold p (runRegs p is r).cfgSel) (runRegs p is r).lastLevel count' js = true := by
  induction is generalizing r count with
  | nil => exact ⟨hpow, count, hcount, h⟩
  | cons i is ih =>
    obtain ⟨hi, hf, count', hcount', hrest⟩ := cycle_of_inTime hcount h
    rw [runRegs, regsAfter_cycle hi]
    exact ih (nextPowered_of_no_fire hpow hf) hcount' hrest

/-- Settles O39: the run before leaves a sequence in time, whose first operation cannot fire. -/
theorem noFailureWhileHeartbeatsComeInTime : Obligations.NoFailureWhileHeartbeatsComeInTime := by
  intro s r ops j hpow _ hinTime
  obtain ⟨hpow', count', hcount, hrest⟩ := runRegs_of_inTime hpow le_rfl hinTime
  obtain ⟨-, hf, -⟩ := cycle_of_inTime hcount hrest
  exact ⟨_, runOps_withRegs ops s r, hpow', hf⟩

end Sys2Proof.Machine

/-! The statements of 60_exceptions.md: the outcome of every meeting of events in one cycle, and that a RECOVERING block
consumes no tick. -/

namespace Sys2Proof.Machine

/-! ### A cycle in which nothing is counted -/

/-- A cycle without edge and counted tick writes the level alone (R82, R95, R103). -/
theorem cycle_of_not_counted {p : Params} {r : Registers} {i : Inputs} (he : edge r i = false)
    (ha : accTick r i = false) (ht : seqTick r i = false) : cycle p r i = { r with lastLevel := i.H } := by
  obtain ⟨helapsed, hpow⟩ := cycle_power_of_not_counted (p := p) he ha
  obtain ⟨hcount, hline⟩ := cycle_pulse_of_not_counted (p := p) (fire_of_no_accTick ha) ht
  rw [cycle_elapsed] at helapsed
  rw [cycle_powered] at hpow
  rw [cycle_resetElapsed] at hcount
  rw [cycle_resetAsserted] at hline
  rw [cycle, helapsed, hcount, hpow, hline]
  rfl

/-- Settles O56: in RECOVERING power is off and the reset line released, so neither counter counts the tick. -/
theorem recoveringIgnoresTicks : Obligations.RecoveringIgnoresTicks := by
  intro s r i h hi he
  obtain ⟨hpow, hline⟩ := (fsm_recovering_iff r).mp h
  rw [exec_cycle hi, cycle_of_not_counted he (accTick_of_unpowered hpow) (seqTick_of_released hline)]
  rfl

/-! ### A timeout condition that does not fire in its cycle -/

theorem uneventful_iff (last : Bool) (is : List Instr) :
    uneventful last is = true ↔ noReset is = true ∧ silent last is = true ∧ tickCount is = 0 := by
  simp only [uneventful, Bool.and_eq_true, decide_eq_true_eq, and_assoc]

/-- Without a tick and a RESET the sequencer's registers stay (R95, R103). -/
theorem runRegs_pulse_of_no_tick (p : Params) {is : List Instr} (hno : noReset is = true) (hK : tickCount is = 0)
    (r : Registers) : (runRegs p is r).resetElapsed = r.resetElapsed ∧
      (runRegs p is r).resetAsserted = r.resetAsserted := by
  refine runRegs_keeps (holds := fun q => q.resetElapsed = r.resetElapsed ∧ q.resetAsserted = r.resetAsserted)
    (fun i hi q ⟨hcount, hline⟩ => ?_) ⟨rfl, rfl⟩
  obtain ⟨hcount', hline'⟩ := cycle_pulse_of_no_tick (p := p) (r := q) (isTick_of_tickCount_eq_zero hK hi)
  rw [regsAfter_cycle (isReset_of_noReset hno hi)]
  exact ⟨hcount'.trans hcount, hline'.trans hline⟩

/-- After a condition that did not fire, uneventful cycles keep the power and the reset line, and the next counted tick
meets the condition again (R84, R150). -/
theorem runOps_of_heldOff (s : State) {r : Registers} {i : Instr} (hcond : timeoutCond s.params r (inputsOf i) = true)
    (hf : fire s.params r (inputsOf i) = false) {ops : List Instr} (hops : uneventful (levelIn i) ops = true) :
    ∃ u, runOps ops (s.withRegs (cycle s.params r (inputsOf i))) = .next (s.withRegs u) ∧ u.powered = true ∧
      u.resetAsserted = nextResetAsserted s.params r (inputsOf i) ∧
      ∀ j, accTick u (inputsOf j) = true → timeoutCond s.params u (inputsOf j) = true := by
  obtain ⟨hno, hsilent, hK⟩ := (uneventful_iff _ _).mp hops
  obtain ⟨hi, -⟩ := (accTick_iff r i).mp (timeoutCond_accTick hcond)
  obtain ⟨-, -, hlater⟩ := timeoutAndFire s r i
  obtain ⟨u, hrun, hpow, hnext⟩ := hlater hcond hf ops hno hsilent
  rw [runOps_cycle hi, runOps_withRegs, Host.Outcome.next.injEq, State.withRegs_inj] at hrun
  subst hrun
  exact ⟨_, runOps_withRegs _ _ _, hpow hK, (runRegs_pulse_of_no_tick _ hno hK _).2, fun j hj => (hnext j hj).1⟩

/-- Settles O55: an edge holds the tick of its cycle back from the accumulator alone, and a condition that meets the
pulse, or its release, is held off to the next counted tick. -/
theorem priorityOfSimultaneousEvents : Obligations.PriorityOfSimultaneousEvents := by
  intro s r i
  dsimp only [events]
  obtain ⟨hedgeFire, hfireRelease, -⟩ := writesNeverConflict s.params r (inputsOf i)
  refine ⟨_, exec_withRegs i s r, fun hi => ?reset, fun he _ _ => ?edgeTick, fun he hK hline => ?edgePulse,
    fun hrel hcond => ?condRelease, fun hcond hline hrel => ?condPulse, hfireRelease,
    fun ⟨hf, he⟩ => hedgeFire ⟨he, hf⟩⟩
  case reset =>
    obtain ⟨h, sel, rfl⟩ := eq_reset_of_isReset hi
    exact ⟨events_of_reset rfl, rfl⟩
  case edgeTick =>
    rw [regsAfter_cycle ((edgeFunction r _).mp he).1]
    exact ⟨nextElapsed_of_edge he, accTick_of_edge he, fire_of_edge he⟩
  case edgePulse =>
    have hi : isReset i = false := ((edgeFunction r _).mp he).1
    have hcount := nextResetElapsed_of_pulse (p := s.params) hi hline
    rw [hK, if_pos rfl] at hcount
    rw [regsAfter_cycle hi]
    exact ⟨nextElapsed_of_edge he, nextPowered_of_edge he, hcount, nextResetAsserted_of_asserted hline⟩
  case condRelease =>
    obtain ⟨hi, -, hpow, -⟩ := (accTick_iff r i).mp (timeoutCond_accTick hcond)
    have hline : r.resetAsserted = true := seqTick_resetAsserted (release_seqTick hrel)
    have hf : fire s.params r (inputsOf i) = false := fire_of_asserted hline
    have hreleased : nextResetAsserted s.params r (inputsOf i) = false := by
      rw [nextResetAsserted_of_asserted hline, hrel, Bool.not_true]
    rw [regsAfter_cycle hi]
    refine ⟨hf, hreleased, nextPowered_of_no_fire hpow hf, fun ops hops => ?_⟩
    obtain ⟨u, hrun, hpow', hline', hnext⟩ := runOps_of_heldOff s hcond hf hops
    exact ⟨u, hrun, hpow', fun j hj => fire_iff.mpr ⟨hnext j hj, hline'.trans hreleased⟩⟩
  case condPulse =>
    obtain ⟨hi, -, hpow, -⟩ := (accTick_iff r i).mp (timeoutCond_accTick hcond)
    have hf : fire s.params r (inputsOf i) = false := fire_of_asserted hline
    have hq : fsm (cycle s.params r (inputsOf i)) = .restoredInReset := by
      simp [fsm_cycle_of_restoredInReset ((fsm_restoredInReset_iff r).mpr ⟨hpow, hline⟩), hrel]
    rw [regsAfter_cycle hi]
    refine ⟨hf, hq, fun ops hops => ?_⟩
    obtain ⟨u, hrun, hpow', -, hnext⟩ := runOps_of_heldOff s hcond hf hops
    exact ⟨u, hrun, hpow', hnext⟩

end Sys2Proof.Machine

/-! The statements of 70_reset_and_hazards.md: the course of the boot after a RESET, and what stays without ticks. -/

namespace Sys2Proof.Machine

/-! ### The pulse of an unpowered device -/

/-- Without power nothing fires, so a released reset line stays released until an edge or a RESET (R96, R116). -/
theorem runRegs_released_of_unpowered (p : Params) {is : List Instr} (hno : noReset is = true) {r : Registers}
    (hsilent : silent r.lastLevel is = true) (hoff : r.powered = false) (hline : r.resetAsserted = false) :
    (runRegs p is r).resetAsserted = false := by
  refine (runRegs_keeps_of_silent (holds := fun q => q.powered = false ∧ q.resetAsserted = false)
    (fun i hi q he ⟨hoff, hline⟩ => ⟨regsAfter_unpowered he hoff, ?_⟩) hsilent ⟨hoff, hline⟩).2
  rw [regsAfter_cycle (isReset_of_noReset hno hi), cycle_resetAsserted, nextResetAsserted_of_released hline,
    fire_of_unpowered hoff]

/-- During a pulse of an unpowered device, a silent run leaves the reset line asserted exactly while the ticks counted
stay below `P`: the `P`-th releases it, and no fire asserts it again (R98, R146). -/
theorem runRegs_resetAsserted_of_unpowered {p : Params} (hw : p.wellFormed = true) {is : List Instr}
    (hno : noReset is = true) {r : Registers} (hsilent : silent r.lastLevel is = true) (hoff : r.powered = false)
    (hline : r.resetAsserted = true) (hbelow : r.resetElapsed < pulseTicks p) :
    (runRegs p is r).resetAsserted = decide (r.resetElapsed + tickCount is < pulseTicks p) := by
  induction is generalizing r with
  | nil => exact hline.trans (decide_eq_true hbelow).symm
  | cons i is ih =>
    have hi : isReset i = false := isReset_of_noReset hno List.mem_cons_self
    have hrest : noReset is = true := (Bool.and_eq_true_iff.mp hno).2
    rw [silent_cons p, Bool.and_eq_true, Bool.not_eq_true'] at hsilent
    obtain ⟨he, hsilent'⟩ := hsilent
    have hoff' : (regsAfter p r i).powered = false := regsAfter_unpowered he hoff
    obtain ⟨hcount, hline'⟩ := cycle_of_pulse hw hi hline hbelow
    rw [← regsAfter_cycle hi p] at hcount hline'
    have hsum : (regsAfter p r i).resetElapsed + tickCount is = r.resetElapsed + tickCount (i :: is) := by
      rw [hcount, tickCount, Nat.add_assoc]
    rw [runRegs, ← hsum]
    by_cases hbelow' : (regsAfter p r i).resetElapsed < pulseTicks p
    · exact ih hrest hsilent' hoff' (hline'.trans (decide_eq_true hbelow')) hbelow'
    · rw [runRegs_released_of_unpowered p hrest hsilent' hoff' (hline'.trans (decide_eq_false hbelow'))]
      exact (decide_eq_false (by omega)).symm

/-- Settles O25: RESET cuts power and starts a pulse, whose course in an unpowered device depends on its ticks alone,
and an edge restores power. -/
theorem bootSequence : Obligations.BootSequence := by
  intro s h sel ops hw hno hsilent
  have hpulse := runRegs_resetAsserted_of_unpowered (r := resetRegisters h sel) hw hno hsilent rfl rfl
    (wellFormed_pulse hw).1
  rw [resetRegisters_resetElapsed, Nat.zero_add] at hpulse
  refine ⟨_, runOps_reset_withRegs h sel ops s, runRegs_unpowered s.params hsilent rfl, hpulse, fun j he => ?_⟩
  obtain ⟨q, hq, helapsed, hpow, -⟩ := edgeRestoresPower s _ j he
  exact ⟨q, hq, hpow, helapsed⟩

/-- Settles O57: a cycle without a tick neither counts for the pulse nor fires, and the run keeps what its cycles
keep. -/
theorem nothingExpiresWithoutTicks : Obligations.NothingExpiresWithoutTicks := by
  intro s r ops hno hK
  obtain ⟨hcount, hline⟩ := runRegs_pulse_of_no_tick s.params hno hK r
  exact ⟨_, runOps_withRegs ops s r, hline, hcount, runRegs_powered_of_no_tick s.params hno hK⟩

end Sys2Proof.Machine
